-- ==== Sys2Proof/Word.lean ====
section
/-! DEFINITION. The word types of the BitCodec unit (00_scope.md rules R6, R7). -/

namespace Sys2Proof

/-- A word of the host data bus: HOST_W = 32 bits (00_scope.md R6). Every register access and every command
word is one of these. -/
abbrev Word := BitVec 32

/-- One lane or one byte of a buffer: LANE_W = 8 bits (00_scope.md R6; 10_state.md R15, R17). -/
abbrev Byte := BitVec 8

/-- The contents of INT: W_INT = 64 bits (00_scope.md R6; 10_state.md R14). -/
abbrev DWord := BitVec 64

/-- An offset in the register window of WIN = 256 bytes (20_memory.md R27). -/
abbrev Offset := BitVec 8

end Sys2Proof
end

