-- ==== Sys2Proof/Syntax.lean ====
section
/-! DEFINITION. The commands of the unit, one constructor per row of spec/opcode_table.json (30_encoding.md
rules R48, R56). -/

namespace Sys2Proof

/-- A command. The only operand a command word carries is the count N, an unsigned number (30_encoding.md R49,
R53); every source and destination is a fixed register (10_state.md R24). -/
inductive Instr where
  /-- I2B w: truncate INT to w bits and expand it into lanes (40_int_bits.md R58). -/
  | i2b (w : Nat)
  /-- B2I: read the lanes as an unsigned number (40_int_bits.md R60). -/
  | b2i
  /-- B2I.S: read the lanes as a two's-complement number (40_int_bits.md R61). -/
  | b2is
  /-- SWP g: reverse the order of the runs of g lanes (41_swap.md R64). -/
  | swp (g : Nat)
  /-- BY2B: expand the bytes into lanes through the lookup table (42_byte_codec.md R66). -/
  | by2b
  /-- B2BY: reduce each group of 8 lanes to a byte (42_byte_codec.md R67). -/
  | b2by
  deriving DecidableEq, Repr

end Sys2Proof
end

