-- ==== Sys2Proof/WellFormed.lean ====
section
/-! DEFINITION. Which commands a command word can carry (30_encoding.md rules R47, R49). -/

namespace Sys2Proof

/-- The count fits the 7-bit N field (30_encoding.md R47, R49). -/
def countFits (n : Nat) : Bool := decide (n < 128)

/-- A command that some word encodes: its count, if it has one, fits N. Counts that the hardware then refuses
with OperandRange (w > 64, g = 0) are well-formed: "the word decodes, but the command raises OperandRange"
(30_encoding.md R49). -/
def WellFormed : Instr → Bool
  | .i2b w => countFits w
  | .b2i => true
  | .b2is => true
  | .swp g => countFits g
  | .by2b => true
  | .b2by => true

end Sys2Proof
end

