-- ==== Sys2Proof/Decode.lean ====
section
/-! DEFINITION. The command decoder, total on every 32-bit word, and the encoder beside it (30_encoding.md rules
R46 to R53, R56). -/

namespace Sys2Proof

/-- Which clause of 30_encoding.md R51 makes a word illegal. Every one of them raises IllegalCommand(0); the
names are the model's own and nothing observable depends on which one is reported (log 12). -/
inductive Illegal where
  /-- c[31:15] is not 0. -/
  | reservedHigh
  /-- c[7:5] is not 0. -/
  | reservedLow
  /-- OP is not in 1..5. -/
  | reservedOp
  /-- S = 1 and OP is not 2. -/
  | signUnused
  /-- N is not 0 and OP is in 2, 4, 5. -/
  | countUnused
  deriving DecidableEq, Repr

/-- RES_H, bits 31:15 (30_encoding.md R47). -/
def resHField (c : Word) : BitVec 17 := c.extractLsb' 15 17

/-- N, bits 14:8 (30_encoding.md R47). -/
def nField (c : Word) : BitVec 7 := c.extractLsb' 8 7

/-- RES_L, bits 7:5 (30_encoding.md R47). -/
def resLField (c : Word) : BitVec 3 := c.extractLsb' 5 3

/-- S, bit 4 (30_encoding.md R47, R50). -/
def sField (c : Word) : Bool := c.getLsbD 4

/-- OP, bits 3:0 (30_encoding.md R47, R48). -/
def opField (c : Word) : BitVec 4 := c.extractLsb' 0 4

/-- A command that uses neither N nor S: both must be 0 (30_encoding.md R49, R50). -/
def decodePlain (c : Word) (i : Instr) : Except Illegal Instr :=
  if sField c then .error .signUnused
  else if nField c ≠ 0 then .error .countUnused
  else .ok i

/-- A command whose count is N and that does not use S (30_encoding.md R49, R50, R53). -/
def decodeCount (c : Word) (mk : Nat → Instr) : Except Illegal Instr :=
  if sField c then .error .signUnused else .ok (mk (nField c).toNat)

/-- OP = 2: N must be 0 and S selects B2I or B2I.S (30_encoding.md R49, R50). -/
def decodeSigned (c : Word) : Except Illegal Instr :=
  if nField c ≠ 0 then .error .countUnused
  else .ok (if sField c then .b2is else .b2i)

/-- The decoder: every word is a command of 30_encoding.md R56 or illegal by R51 (R46, R52). -/
def decode (c : Word) : Except Illegal Instr :=
  if resHField c ≠ 0 then .error .reservedHigh
  else if resLField c ≠ 0 then .error .reservedLow
  else match (opField c).toNat with
    | 1 => decodeCount c .i2b
    | 2 => decodeSigned c
    | 3 => decodeCount c .swp
    | 4 => decodePlain c .by2b
    | 5 => decodePlain c .b2by
    | _ => .error .reservedOp

/-- Assemble the fields of format C: N from bit 8, S in bit 4, OP from bit 0, the reserved bits 0 (30_encoding.md
R47). -/
def formatC (n : Nat) (signed : Bool) (op : BitVec 4) : Word :=
  (BitVec.ofNat 7 n).setWidth 32 <<< 8 ||| (BitVec.ofBool signed).setWidth 32 <<< 4 ||| op.setWidth 32

/-- The encoder, from the opcode numbers of 30_encoding.md R48 and the map of R56. -/
def encode : Instr → Word
  | .i2b w => formatC w false 1#4
  | .b2i => formatC 0 false 2#4
  | .b2is => formatC 0 true 2#4
  | .swp g => formatC g false 3#4
  | .by2b => formatC 0 false 4#4
  | .b2by => formatC 0 false 5#4

/-- The command read from a word numbered as spec/opcode_table.json numbers it. A command is exactly one 32-bit
word (30_encoding.md R46), so a number of more than 32 bits is no command. -/
def decodeTableWord (nbits w : Nat) : Option Instr :=
  if w % 2 ^ nbits < 2 ^ 32 then (decode (BitVec.ofNat 32 (w % 2 ^ nbits))).toOption else none

/-- A row of the opcode map: the words c with c AND mask = pattern (30_encoding.md R56). -/
structure OpcodeRow where
  pattern : Word
  mask : Word
  deriving DecidableEq, Repr

/-- A word belongs to a row (30_encoding.md R56). -/
def OpcodeRow.selects (r : OpcodeRow) (c : Word) : Bool := c &&& r.mask == r.pattern

/-- The opcode map's row of a command (30_encoding.md R56; spec/opcode_table.json). -/
def opcodeRow : Instr → OpcodeRow
  | .i2b _ => ⟨0x00000001#32, 0xFFFF80FF#32⟩
  | .b2i => ⟨0x00000002#32, 0xFFFFFFFF#32⟩
  | .b2is => ⟨0x00000012#32, 0xFFFFFFFF#32⟩
  | .swp _ => ⟨0x00000003#32, 0xFFFF80FF#32⟩
  | .by2b => ⟨0x00000004#32, 0xFFFFFFFF#32⟩
  | .b2by => ⟨0x00000005#32, 0xFFFFFFFF#32⟩

end Sys2Proof
end

