-- ==== Sys2Proof/Config.lean ====
section
/-! DEFINITION. The parameters of the unit (00_scope.md rule R6): the fixed ones as named constants, the OPEN
ones (BASE, LATENCY) as constants without a body. -/

namespace Sys2Proof.Config

/-- L_MAX: the capacity of the lane buffer, in lanes (00_scope.md R6). -/
abbrev lMax : Nat := 64

/-- B_MAX: the capacity of the byte buffer, in bytes; L_MAX = 8 * B_MAX (00_scope.md R6). -/
abbrev bMax : Nat := 8

/-- W_INT: the width of INT, in bits (00_scope.md R6). -/
abbrev wInt : Nat := 64

/-- WIN: the size of the register window, in bytes (00_scope.md R6; 20_memory.md R27). -/
abbrev win : Nat := 256

/-- The contents of the ID register: "BC", specification version 7, hardware revision 1 (10_state.md R20). -/
abbrev idValue : Word := 0x42430701#32

/-- Which 256-byte block of the host's address map the window is. OPEN: the platform decides (00_scope.md R6,
20_memory.md R37; log 2). -/
opaque window : Nat

/-- BASE, the host address of the window, aligned to WIN (00_scope.md R6; log 2). -/
def base : Nat := win * window

/-- LATENCY, the time from a CMD write to its response. OPEN, and no rule depends on it: nothing in the model
reads it (00_scope.md R6; 70_reset_and_hazards.md R96; log 11). -/
opaque latency : Nat

end Sys2Proof.Config
end

