-- ==== Sys2Proof/Machine/State.lean ====
section
/-! DEFINITION. The state of the unit (10_state.md rule R13), the events at its port, what the port gives back,
and the state right after reset (70_reset_and_hazards.md rule R89). -/

namespace Sys2Proof.Machine

/-- The width of a host access. Only 4-byte accesses are served; "accesses of 1, 2 or 8 bytes" get a bus error
(20_memory.md R29). -/
inductive Size where
  | one | two | four | eight
  deriving DecidableEq, Repr

/-- What a host access asks for: MemRead, or MemWrite with its data (20_memory.md R27). The data of an access
that is not of 4 bytes is never looked at (R29), so one bus word holds all the data there is. -/
inductive AccessOp where
  | read
  | write (v : Word)
  deriving DecidableEq, Repr

/-- A host access that reaches the port: its offset in the window, its width, and what it asks for
(20_memory.md R27, R29). The offset is the low 8 bits of the host address, BASE being 256-aligned (log 2). -/
structure Access where
  off : Offset
  size : Size
  op : AccessOp
  deriving DecidableEq, Repr

/-- What can happen at the unit's inputs: an access at the port (20_memory.md R38), or a change of the reset
input (70_reset_and_hazards.md R89; log 4). -/
inductive PortEvent where
  | access (a : Access)
  | assertReset
  | releaseReset
  deriving DecidableEq, Repr

/-- What the port answers to an access (20_memory.md R29, R45): a read returns data, a write a response, and
either may carry a bus error (log 5). -/
inductive Response where
  | read (data : Word) (busError : Bool)
  | write (busError : Bool)
  deriving DecidableEq, Repr

/-- STATUS, by its fields (10_state.md R19). The reserved bits 7:3, 15 and 31:17 hold nothing and read 0. -/
structure Status where
  /-- ERR, bits 2:0: the error kind of the most recent command, 0 for success. -/
  err : BitVec 3
  /-- ERRIDX, bits 14:8: the lane index of the first offending lane, or 0. -/
  errIdx : BitVec 7
  /-- ERRSEEN, bit 16: set by every command that ends in an error, cleared by the host or by reset. -/
  errSeen : Bool
  deriving DecidableEq, Repr

/-- The state. The first seven fields are the architectural state, "exactly this list" (10_state.md R13); the
last three stand for what is outside the unit. -/
structure State where
  /-- INT, the 64-bit data register (10_state.md R14). -/
  int : DWord
  /-- LANE[0..63], the lane buffer (10_state.md R15). -/
  lane : Vector Byte 64
  /-- LLEN, the length of the Bit-sequence in LANE; any value 0..127 (10_state.md R16). -/
  llen : BitVec 7
  /-- BYTE[0..7], the byte buffer (10_state.md R17). -/
  bytes : Vector Byte 8
  /-- BLEN, the length of the byte-sequence in BYTE; any value 0..15 (10_state.md R18). -/
  blen : BitVec 4
  /-- STATUS (10_state.md R19). -/
  status : Status
  /-- ID, the constant identification register, which no event writes (10_state.md R20; log 10). -/
  idReg : Word
  /-- The events still to come at the inputs, in the order the port receives them (20_memory.md R38; log 1). -/
  port : List PortEvent
  /-- What the port has answered so far, oldest first (20_memory.md R45; 70_reset_and_hazards.md R97; log 3). -/
  responses : List Response
  /-- The reset input is asserted (70_reset_and_hazards.md R89, R92; log 4). -/
  inReset : Bool
  deriving DecidableEq, Repr

/-- Why the machine stops with a fault: never. Every error of this unit is a completed command with a nonzero
STATUS.ERR (60_exceptions.md R80), and a bus error is an answer to the host (20_memory.md R29), so the type has
no constructor. Safe: there is nothing to raise. -/
inductive Fault : Type
  deriving DecidableEq, Repr

/-- Why a step has no meaning. -/
inductive Refusal where
  /-- An instruction without a meaning, by its mnemonic: no arm of exec raises it. Safe. -/
  | notModelled (mnemonic : String)
  /-- A host access while reset is asserted, raised by the port (takeEvent). "A model has no step for them"
  (70_reset_and_hazards.md R92). Safe: no claim can be made of a run that holds one. -/
  | accessDuringReset
  deriving DecidableEq, Repr

/-- The register values of reset: every one is the spec's own (70_reset_and_hazards.md R89). -/
def State.reset : State where
  int := 0
  lane := Vector.replicate 64 0
  llen := 0
  bytes := Vector.replicate 8 0
  blen := 0
  status := ⟨0, 0, false⟩
  idReg := Config.idValue
  port := []
  responses := []
  inReset := false

end Sys2Proof.Machine
end

