-- ==== Sys2Proof/Machine/Flags.lean ====
section
/-! DEFINITION. STATUS: the error codes, the three updates STATUS ever takes, and the word the host reads
(10_state.md R19; 60_exceptions.md R69, R76). -/

namespace Sys2Proof.Machine

/-- The error kinds (60_exceptions.md R69). -/
inductive ErrorKind where
  | invalidBitValue | malformedLength | invalidBitPattern | illegalCommand | operandRange
  deriving DecidableEq, Repr

/-- The code of an error kind in STATUS.ERR (60_exceptions.md R69). -/
def errorCode : ErrorKind → BitVec 3
  | .invalidBitValue => 1
  | .malformedLength => 2
  | .invalidBitPattern => 3
  | .illegalCommand => 4
  | .operandRange => 5

/-- STATUS after a successful command: ERR and ERRIDX 0, ERRSEEN unchanged (60_exceptions.md R76). -/
def statusOk (st : Status) : Status := { st with err := 0, errIdx := 0 }

/-- STATUS after `raise E(idx)`: the code, the index, and ERRSEEN set (60_exceptions.md R76). -/
def statusError (e : ErrorKind) (idx : Nat) : Status := ⟨errorCode e, BitVec.ofNat 7 idx, true⟩

/-- STATUS after a host write of v: bit 16 = 1 clears ERRSEEN, and nothing else of the write counts
(10_state.md R19). -/
def statusHostWrite (v : Word) (st : Status) : Status := if v.getLsbD 16 then { st with errSeen := false } else st

/-- The word a read of STATUS returns: ERR in 2:0, ERRIDX in 14:8, ERRSEEN in 16, 0 elsewhere (10_state.md R19). -/
def statusWord (st : Status) : Word :=
  (BitVec.ofBool st.errSeen).setWidth 32 <<< 16 ||| st.errIdx.setWidth 32 <<< 8 ||| st.err.setWidth 32

end Sys2Proof.Machine
end

