-- ==== Sys2Proof/Machine/Operands.lean ====
section
/-! DEFINITION. The operand forms of the commands: the sequences a command reads, bit normalisation, the lookup
table, the numbers a bit-sequence stands for, and the host words' byte order (10_state.md R22; 20_memory.md R32 to
R35; 40_int_bits.md R57; 00_scope.md R7, R8). -/

namespace Sys2Proof.Machine

/-- LANE[i] by number. Every index the spec uses is below 64. -/
def State.laneAt (s : State) (i : Nat) : Byte := s.lane.toList.getD i 0

/-- BYTE[k] by number. Every index the spec uses is below 8. -/
def State.byteAt (s : State) (k : Nat) : Byte := s.bytes.toList.getD k 0

/-- The Bit-sequence in LANE: LANE[0..LLEN-1] (00_scope.md R8, 10_state.md R15). -/
def State.sequence (s : State) : List Byte := s.lane.toList.take s.llen.toNat

/-- The byte-sequence in BYTE: BYTE[0..BLEN-1] (00_scope.md R8, 10_state.md R17). -/
def State.byteSequence (s : State) : List Byte := s.bytes.toList.take s.blen.toNat

/-- A canonical lane value: 0x00 for 0, 0x01 for 1 (10_state.md R15; 00_scope.md R11). -/
def canonicalLane (b : Bool) : Byte := if b then 0x01#8 else 0x00#8

/-- `norm`: the four accepted encodings of a Bit onto 0 and 1, every other value onto NONE (40_int_bits.md R57). -/
def norm (e : Byte) : Option Bool :=
  if e = 0x00#8 ∨ e = 0x30#8 then some false
  else if e = 0x01#8 ∨ e = 0x31#8 then some true
  else none

/-- A lane B2BY accepts: "any other lane value, 0x30 and 0x31 included" is refused (42_byte_codec.md R67). -/
def isCanonical (e : Byte) : Bool := e == 0x00#8 || e == 0x01#8

/-- The lowest index of an element that is not accepted, "the first offending lane" (60_exceptions.md R70, R72). -/
def firstOffending (accepts : Byte → Bool) (seq : List Byte) : Option Nat :=
  seq.findIdx? fun e => !accepts e

/-- The unsigned value of a bit-sequence, most significant first, by shift-left-and-or (40_int_bits.md R60). -/
def unsignedValue (bits : List Bool) : Nat := bits.foldl (fun u b => 2 * u + b.toNat) 0

/-- The two's-complement value of a bit-sequence: a leading 1 gives the value of the remaining bits less
2^(L-1) (40_int_bits.md R61). -/
def signedValue (bits : List Bool) : Int :=
  match bits with
  | true :: rest => (unsignedValue rest : Int) - 2 ^ rest.length
  | other => unsignedValue other

/-- `EXP(v)`: the canonical 8-lane pattern of a byte, most significant bit first (10_state.md R22). -/
def expand (v : Byte) : List Byte := (List.range 8).map fun i => canonicalLane (v.getLsbD (7 - i))

/-- `INV(p)` for a pattern of canonical lanes: the byte whose bits they are, the sum of p[i]*2^(7-i), and NONE for
any other pattern (10_state.md R22). -/
def compact (p : List Byte) : Option Byte :=
  if p.length = 8 ∧ p.all isCanonical then
    some (BitVec.ofNat 8 (p.foldl (fun u e => 2 * u + e.toNat) 0))
  else none

/-- The lookup table as the 256-entry ROM it is: entry v is EXP(v) (10_state.md R22, 70_reset_and_hazards.md R90). -/
def lookupTable : List (List Byte) := (List.range 256).map fun v => expand (BitVec.ofNat 8 v)

/-- Byte j of a host word, bits 8j+7 down to 8j (20_memory.md R33). -/
def wordByte (v : Word) (j : Nat) : Byte := v.extractLsb' (8 * j) 8

/-- Four bytes as one host word, b0 in bits 7:0 (20_memory.md R33, R34). -/
def packWord (b3 b2 b1 b0 : Byte) : Word := b3 ++ b2 ++ b1 ++ b0

/-- The lanes of I2B w: LANE[i] = INT bit w-1-i for i below w, 0x00 from w on (40_int_bits.md R58). -/
def truncatedLane (v : DWord) (w i : Nat) : Byte := if i < w then canonicalLane (v.getLsbD (w - 1 - i)) else 0x00#8

/-- The number of runs of g elements in a sequence of L: ceil(L / g) (41_swap.md R64). -/
def runCount (g len : Nat) : Nat := (len + g - 1) / g

/-- run_j of a sequence: the elements j*g up to min((j+1)*g, L) (41_swap.md R64). -/
def runAt (g : Nat) (seq : List Byte) (j : Nat) : List Byte := (seq.drop (j * g)).take g

/-- The runs of g elements in reverse order, each run's own order kept (41_swap.md R64). -/
def swapRuns (g : Nat) (seq : List Byte) : List Byte :=
  ((List.range (runCount g seq.length)).map (runAt g seq)).reverse.flatten

end Sys2Proof.Machine
end

