-- ==== Sys2Proof/Machine/Ops.lean ====
section
/-! DEFINITION. The shared operations: ending a command (in success or by raising an error), writing the buffers,
the register window, reset, and the port that takes the next event (20_memory.md R28 to R39; 60_exceptions.md R76,
R77; 70_reset_and_hazards.md R89, R92). -/

namespace Sys2Proof.Machine

/-! ## Ending a command -/

/-- `raise E(idx)`, the one way an error is taken: STATUS is written and nothing else changes. It vectors nowhere,
saves nothing and changes no mode (60_exceptions.md R76, R77, R80; 00_scope.md R9). -/
def State.raise (e : ErrorKind) (idx : Nat) (s : State) : State := { s with status := statusError e idx }

/-- A command ends in success (60_exceptions.md R76). -/
def State.succeed (s : State) : State := { s with status := statusOk s.status }

/-- The host's acknowledgement, the counterpart of `raise`: there is no trap return, ERRSEEN is cleared by a write
to STATUS with bit 16 = 1 (60_exceptions.md R81). -/
def State.writeStatus (v : Word) (s : State) : State := { s with status := statusHostWrite v s.status }

/-- What a CMD write of an illegal word does: IllegalCommand(0), before any register is read, whichever clause of
30_encoding.md R51 holds (60_exceptions.md R73). -/
def State.rejectCommand (_why : Illegal) (s : State) : State := s.raise .illegalCommand 0

/-! ## Writing the registers -/

/-- A buffer of n elements, element i being f i. -/
def bufferOf (n : Nat) (f : Nat → Byte) : Vector Byte n := ⟨((List.range n).map f).toArray, by simp⟩

/-- Write all 64 lanes (10_state.md R15). -/
def State.setLanes (f : Nat → Byte) (s : State) : State := { s with lane := bufferOf 64 f }

/-- Write all 8 bytes (10_state.md R17). -/
def State.setBytes (f : Nat → Byte) (s : State) : State := { s with bytes := bufferOf 8 f }

/-- Put a Bit-sequence in LANE, 0x00 in the lanes beyond it, and its length in LLEN (40_int_bits.md R58,
42_byte_codec.md R66). -/
def State.setSequence (len : Nat) (f : Nat → Byte) (s : State) : State :=
  { s.setLanes f with llen := BitVec.ofNat 7 len }

/-- B2I and B2I.S: check the length, normalise every lane of the sequence, and only then write the number the bits
stand for into INT (40_int_bits.md R57, R60, R61). -/
def State.convertBits (value : List Bool → DWord) (s : State) : State :=
  if s.llen.toNat > Config.lMax then s.raise .operandRange 0
  else match firstOffending (fun e => (norm e).isSome) s.sequence with
    | some i => s.raise .invalidBitValue i
    | none => ({ s with int := value (s.sequence.filterMap norm) }).succeed

/-! ## The register window -/

/-- The registers of the window (20_memory.md R28). -/
inductive Reg where
  | cmd | status | intLo | intHi | llen | blen | bytesLo | bytesHi
  | laneW (k : Nat)
  | ident
  | reserved
  deriving DecidableEq, Repr

/-- The register at an aligned offset (20_memory.md R28). -/
def regAt (off : Offset) : Reg :=
  match off.toNat with
  | 0x00 => .cmd
  | 0x04 => .status
  | 0x08 => .intLo
  | 0x0C => .intHi
  | 0x10 => .llen
  | 0x14 => .blen
  | 0x18 => .bytesLo
  | 0x1C => .bytesHi
  | 0x60 => .ident
  | o => if 0x20 ≤ o ∧ o < 0x60 then .laneW ((o - 0x20) / 4) else .reserved

/-- The word a read returns. CMD and the reserved offsets read 0 (20_memory.md R28, R30, R32, R33, R34). -/
def State.readReg (s : State) : Reg → Word
  | .cmd => 0
  | .status => statusWord s.status
  | .intLo => s.int.extractLsb' 0 32
  | .intHi => s.int.extractLsb' 32 32
  | .llen => s.llen.setWidth 32
  | .blen => s.blen.setWidth 32
  | .bytesLo => packWord (s.byteAt 3) (s.byteAt 2) (s.byteAt 1) (s.byteAt 0)
  | .bytesHi => packWord (s.byteAt 7) (s.byteAt 6) (s.byteAt 5) (s.byteAt 4)
  | .laneW k => packWord (s.laneAt (4 * k + 3)) (s.laneAt (4 * k + 2)) (s.laneAt (4 * k + 1)) (s.laneAt (4 * k))
  | .ident => s.idReg
  | .reserved => 0

/-- What a write stores. CMD stores nothing (10_state.md R21): its command is run by the step. ID and the reserved
offsets ignore writes (20_memory.md R30, R31). -/
def State.writeReg (r : Reg) (v : Word) (s : State) : State :=
  match r with
  | .cmd => s
  | .status => s.writeStatus v
  | .intLo => { s with int := s.int.extractLsb' 32 32 ++ v }
  | .intHi => { s with int := v ++ s.int.extractLsb' 0 32 }
  | .llen => { s with llen := v.extractLsb' 0 7 }
  | .blen => { s with blen := v.extractLsb' 0 4 }
  | .bytesLo => s.setBytes fun k => if k < 4 then wordByte v k else s.byteAt k
  | .bytesHi => s.setBytes fun k => if k < 4 then s.byteAt k else wordByte v (k - 4)
  | .laneW k => s.setLanes fun i => if i / 4 = k then wordByte v (i % 4) else s.laneAt i
  | .ident => s
  | .reserved => s

/-- An access the port serves: 4 bytes at a multiple of 4 (20_memory.md R29). -/
def Access.served (a : Access) : Bool := a.size == .four && a.off.toNat % 4 == 0

/-! ## The port -/

/-- Give an answer to the host (20_memory.md R45). -/
def State.respond (r : Response) (s : State) : State := { s with responses := s.responses ++ [r] }

/-- The answer to an access that is not served: a bus error, and data 0 for a read (20_memory.md R29). -/
def busErrorResponse : AccessOp → Response
  | .read => .read 0 true
  | .write _ => .write true

/-- A CMD write is answered when its command has completed, whether or not the command raised an error
(20_memory.md R39, 60_exceptions.md R80). DEDUCED (log 5): the answer carries no bus error, since no error kind is routed
anywhere but STATUS (60_exceptions.md R82). -/
def completeCommand : Host.Outcome State Fault Refusal → Host.Outcome State Fault Refusal
  | .next t => .next (t.respond (.write false))
  | .fault f => .fault f
  | .refused r => .refused r

/-- Every register at the value 70_reset_and_hazards.md R89 gives; the host's side (port and responses) is not the
unit's and stays (log 4). -/
def State.applyReset (s : State) : State :=
  { State.reset with port := s.port, responses := s.responses, inReset := s.inReset }

/-- What the port makes of the next event. -/
inductive Taken where
  /-- A command word was written to CMD; the state is the one its command runs in. -/
  | command (c : Word) (s : State)
  /-- The event is done. -/
  | done (s : State)
  /-- The event has no step. -/
  | stop (r : Refusal)
  deriving DecidableEq, Repr

/-- Serve one access (20_memory.md R29, R31). -/
def serveAccess (a : Access) (s : State) : Taken :=
  if a.served then
    match a.op, regAt a.off with
    | .read, r => .done (s.respond (.read (s.readReg r) false))
    | .write c, .cmd => .command c s
    | .write v, r => .done ((s.writeReg r v).respond (.write false))
  else .done (s.respond (busErrorResponse a.op))

/-- Take the next event at the inputs. With none, nothing happens: all state is kept between accesses
(60_exceptions.md R88; log 1). While reset is asserted, and when it is released, every register takes its reset
value, and an access has no step (70_reset_and_hazards.md R89, R92; log 4). -/
def takeEvent (s : State) : Taken :=
  match s.port with
  | [] => .done s
  | .access a :: rest => if s.inReset then .stop .accessDuringReset else serveAccess a { s with port := rest }
  | .assertReset :: rest => .done { s.applyReset with port := rest, inReset := true }
  | .releaseReset :: rest =>
    .done (if s.inReset then { s.applyReset with port := rest, inReset := false } else { s with port := rest })

/-- The access that writes command word c to CMD: MemWrite(BASE+0x00, 4, c) (10_state.md R21, 30_encoding.md R54). -/
def cmdWrite (c : Word) : Access := ⟨0x00#8, .four, .write c⟩

end Sys2Proof.Machine
end

