-- ==== Sys2Proof/Machine/ByteCodec.lean ====
section
/-! DEFINITION. The byte and bit-sequence codec: BY2B, B2BY (42_byte_codec.md). -/

namespace Sys2Proof.Machine

/-- BY2B (42_byte_codec.md R66): BLEN above 8 raises OperandRange(0); otherwise EXP of each byte in turn goes into the
lanes, the other lanes become 0x00, and LLEN becomes 8*BLEN. -/
def execBy2b (s : State) : Host.Outcome State Fault Refusal :=
  if s.blen.toNat > Config.bMax then .next (s.raise .operandRange 0)
  else .next (s.setSequence (8 * s.blen.toNat) fun j => (s.byteSequence.flatMap expand).getD j 0x00#8).succeed

/-- The byte B2BY writes at index k: INV of the k-th group of 8 lanes, 0x00 beyond the sequence (42_byte_codec.md
R67). -/
def reducedByte (seq : List Byte) (k : Nat) : Byte :=
  if k < seq.length / 8 then (compact (runAt 8 seq k)).getD 0x00#8 else 0x00#8

/-- B2BY (42_byte_codec.md R67): the length is checked before any lane is looked at, then every lane of the sequence
must be 0x00 or 0x01; only then are BYTE and BLEN written. -/
def execB2by (s : State) : Host.Outcome State Fault Refusal :=
  if s.llen.toNat > Config.lMax then .next (s.raise .operandRange 0)
  else if s.llen.toNat % 8 ≠ 0 then .next (s.raise .malformedLength 0)
  else match firstOffending isCanonical s.sequence with
    | some i => .next (s.raise .invalidBitPattern i)
    | none =>
      .next ({ s.setBytes (reducedByte s.sequence) with blen := BitVec.ofNat 4 (s.llen.toNat / 8) }).succeed

end Sys2Proof.Machine
end

