-- ==== Sys2Proof/Machine/IntBits.lean ====
section
/-! DEFINITION. The integer and bit-sequence family: I2B, B2I, B2I.S (40_int_bits.md). -/

namespace Sys2Proof.Machine

/-- I2B w (40_int_bits.md R58): w above 64 raises OperandRange(0); otherwise the low w bits of INT go into the lanes,
most significant first, the other lanes become 0x00, and LLEN becomes w. INT itself is never changed. -/
def execI2b (w : Nat) (s : State) : Host.Outcome State Fault Refusal :=
  if w > Config.lMax then .next (s.raise .operandRange 0)
  else .next (s.setSequence w (truncatedLane s.int w)).succeed

/-- B2I (40_int_bits.md R60): the lanes as an unsigned number, zero-extended into INT. -/
def execB2i (s : State) : Host.Outcome State Fault Refusal :=
  .next (s.convertBits fun bits => BitVec.ofNat 64 (unsignedValue bits))

/-- B2I.S (40_int_bits.md R61): the lanes as a two's-complement number, sign-extended into INT. -/
def execB2is (s : State) : Host.Outcome State Fault Refusal :=
  .next (s.convertBits fun bits => BitVec.ofInt 64 (signedValue bits))

end Sys2Proof.Machine
end

