-- ==== Sys2Proof/Machine/Swap.lean ====
section
/-! DEFINITION. The run-reversal family: SWP (41_swap.md). -/

namespace Sys2Proof.Machine

/-- SWP g (41_swap.md R64): g = 0 or LLEN above 64 raises OperandRange(0); otherwise the runs of g lanes of the
sequence change places, computed from the original lanes. LANE[LLEN..63] and LLEN are not written, and no lane value
is interpreted. -/
def execSwp (g : Nat) (s : State) : Host.Outcome State Fault Refusal :=
  if g = 0 ∨ s.llen.toNat > Config.lMax then .next (s.raise .operandRange 0)
  else .next (s.setLanes fun i => (swapRuns g s.sequence).getD i (s.laneAt i)).succeed

end Sys2Proof.Machine
end

