-- ==== Sys2Proof/Machine/Dispatch.lean ====
section
/-! DEFINITION. The one match from a command to its meaning. -/

namespace Sys2Proof.Machine

/-- The effect of a command (40_int_bits.md, 41_swap.md, 42_byte_codec.md). -/
def exec (i : Instr) (s : State) : Host.Outcome State Fault Refusal :=
  match i with
  | .i2b w => Sys2Proof.Machine.execI2b w s
  | .b2i => Sys2Proof.Machine.execB2i s
  | .b2is => Sys2Proof.Machine.execB2is s
  | .swp g => Sys2Proof.Machine.execSwp g s
  | .by2b => Sys2Proof.Machine.execBy2b s
  | .b2by => Sys2Proof.Machine.execB2by s

end Sys2Proof.Machine
end

