-- ==== Sys2Proof/Machine/Step.lean ====
section
/-! DEFINITION. One step of the unit: one event at its inputs (20_memory.md R38, R39). -/

namespace Sys2Proof.Machine

/-- One step. The unit fetches nothing: a command is the data word of a CMD write (10_state.md R21, R23;
20_memory.md R43), and the write is answered after the command has completed (R39). -/
def step (s : State) : Host.Outcome State Fault Refusal :=
  match takeEvent s with
  | .done t => .next t
  | .stop r => .refused r
  | .command c t =>
    match decode c with
    | .ok i => completeCommand (exec i t)
    | .error why => completeCommand (.next (t.rejectCommand why))

/-- The state whose very next step runs the command word w: reset is released and the next access at the port is the
CMD write of w (log 1). -/
def State.withFetchWord (s : State) (nbits w : Nat) : State :=
  { s with port := .access (cmdWrite (BitVec.ofNat 32 (w % 2 ^ nbits))) :: s.port, inReset := false }

end Sys2Proof.Machine
end

