-- ==== Sys2Proof/Machine/Run.lean ====
section
/-! DEFINITION. Runs of a host program and what the host observes (70_reset_and_hazards.md rule R97). -/

namespace Sys2Proof.Machine

/-- k steps, stopping at the first step that has no next state. -/
def run : Nat → State → Host.Outcome State Fault Refusal
  | 0, s => .next s
  | k + 1, s =>
    match step s with
    | .next t => run k t
    | .fault f => .fault f
    | .refused r => .refused r

/-- A host program: "a finite list of accesses" (70_reset_and_hazards.md R97). -/
abbrev HostProgram := List Access

/-- The program's accesses arrive at the port, in order, after everything already there. -/
def State.load (p : HostProgram) (s : State) : State := { s with port := s.port ++ p.map .access }

/-- Run a host program from a start state whose port is idle: one step for each access (70_reset_and_hazards.md
R97). -/
def runProgram (p : HostProgram) (s : State) : Host.Outcome State Fault Refusal := run p.length (s.load p)

/-- The value a response to a read carries. -/
def readValue : Response → Option Word
  | .read v _ => some v
  | .write _ => none

/-- The observations: "the values returned by its `rd` accesses, in order" (70_reset_and_hazards.md R97). -/
def observations (s : State) : List Word := s.responses.filterMap readValue

end Sys2Proof.Machine
end

