-- ==== Sys2Proof/Machine/Asm.lean ====
section
/-! DEFINITION. The assembly language for commands and the host notation of programs (30_encoding.md rules R54, R55;
00_scope.md rule R10). The text's lexical form, where R54 leaves it open, is the model's (log 8). -/

namespace Sys2Proof.Asm

open Sys2Proof.Machine

/-- A command of the assembly language: the core mnemonics, `.word`, and the pseudo-instructions (30_encoding.md R54,
R55). An operand in square brackets there is an Option here. -/
inductive Insn where
  | i2b (w : Option Nat)
  | b2i
  | b2is
  | swp (g : Option Nat)
  | by2b
  | b2by
  | word (v : Nat)
  | b2iu
  | bswap
  | bitrev
  | zext (w : Nat)
  | sext (w : Nat)
  deriving DecidableEq, Repr

/-- The source's default width, 32 (00_scope.md R10). -/
def defaultWidth : Nat := 32

/-- The source's default group size, 8 (00_scope.md R10). -/
def defaultGroup : Nat := 8

/-- `i2b w`, which the assembler refuses for w > 64 (30_encoding.md R54). -/
def assembleI2b (w : Nat) : Option (List Word) := if w ≤ 64 then some [encode (.i2b w)] else none

/-- `swp g`, which the assembler refuses for g = 0 and g > 127 (30_encoding.md R54). -/
def assembleSwp (g : Nat) : Option (List Word) := if 1 ≤ g ∧ g ≤ 127 then some [encode (.swp g)] else none

/-- The command words of an assembly command, in order; none where the assembler refuses it (30_encoding.md R54,
R55). -/
def assemble : Insn → Option (List Word)
  | .i2b w => assembleI2b (w.getD defaultWidth)
  | .b2i => some [encode .b2i]
  | .b2is => some [encode .b2is]
  | .swp g => assembleSwp (g.getD defaultGroup)
  | .by2b => some [encode .by2b]
  | .b2by => some [encode .b2by]
  | .word v => if v < 2 ^ 32 then some [BitVec.ofNat 32 v] else none
  | .b2iu => some [encode .b2i]
  | .bswap => assembleSwp 8
  | .bitrev => assembleSwp 1
  | .zext w => (assembleI2b w).map fun ws => ws ++ [encode .b2i]
  | .sext w => (assembleI2b w).map fun ws => ws ++ [encode .b2is]

/-- A statement of a host program: `wr OFF, v`, `rd OFF`, `cmd <insn>` (30_encoding.md R54). -/
inductive Stmt where
  | wr (off : Offset) (v : Word)
  | rd (off : Offset)
  | cmd (i : Insn)
  deriving DecidableEq, Repr

/-- The accesses of a statement: MemWrite(BASE+OFF, 4, v), MemRead(BASE+OFF, 4), or the CMD writes of a command
(30_encoding.md R54). -/
def stmtAccesses : Stmt → Option (List Access)
  | .wr off v => some [⟨off, .four, .write v⟩]
  | .rd off => some [⟨off, .four, .read⟩]
  | .cmd i => (assemble i).map fun ws => ws.map cmdWrite

/-- The host program of a list of statements. -/
def programAccesses : List Stmt → Option HostProgram
  | [] => some []
  | st :: rest => do return (← stmtAccesses st) ++ (← programAccesses rest)

/-! ## The text of one statement -/

/-- The tokens of a line: white space and commas part them. `cur` is the token being read. -/
def tokensFrom (cur : List Char) : List Char → List (List Char)
  | [] => if cur.isEmpty then [] else [cur]
  | c :: cs =>
    if c == ' ' || c == '\t' || c == ',' then (if cur.isEmpty then [] else [cur]) ++ tokensFrom [] cs
    else tokensFrom (cur ++ [c]) cs

/-- The value of a digit below the base. -/
def digitValue (base : Nat) (c : Char) : Option Nat :=
  let v := if '0' ≤ c ∧ c ≤ '9' then c.toNat - '0'.toNat
    else if 'a' ≤ c ∧ c ≤ 'f' then c.toNat - 'a'.toNat + 10
    else if 'A' ≤ c ∧ c ≤ 'F' then c.toNat - 'A'.toNat + 10
    else base
  if v < base then some v else none

/-- The value of a row of digits; an underscore counts for nothing, so that a row of underscores alone is 0. DESIGN CHOICE
(log 8): 30_encoding.md R54 says neither. -/
def digits (base acc : Nat) : List Char → Option Nat
  | [] => some acc
  | '_' :: cs => digits base acc cs
  | c :: cs => (digitValue base c).bind fun d => digits base (acc * base + d) cs

/-- A number, "decimal or 0x-hex" (30_encoding.md R54). DESIGN CHOICE (log 8): leading zeros are allowed, and a number of
underscores only, '_' or '0x_', is 0. -/
def number : List Char → Option Nat
  | '0' :: 'x' :: c :: cs => digits 16 0 (c :: cs)
  | '0' :: 'x' :: [] => none
  | [] => none
  | cs => digits 10 0 cs

/-- A 32-bit word. -/
def wordOf (t : List Char) : Option Word := (number t).bind fun v => if v < 2 ^ 32 then some (BitVec.ofNat 32 v) else none

/-- The offset of LANEWk, k = 0..15 (20_memory.md R28). DESIGN CHOICE (log 8): k is read as decimal digits are everywhere,
so that LANEW07, LANEW_7 and LANEW7 are one register, and LANEW_ is LANEW0. -/
def laneWord : List Char → Option Offset
  | 'L' :: 'A' :: 'N' :: 'E' :: 'W' :: c :: cs =>
    (digits 10 0 (c :: cs)).bind fun k => if k < 16 then some (BitVec.ofNat 8 (0x20 + 4 * k)) else none
  | _ => none

/-- An offset of the window: a register name, which stands for its offset, or a number (30_encoding.md R54;
20_memory.md R28). -/
def offsetOf (t : List Char) : Option Offset :=
  match String.ofList t with
  | "CMD" => some 0x00#8
  | "STATUS" => some 0x04#8
  | "INT_LO" => some 0x08#8
  | "INT_HI" => some 0x0C#8
  | "LLEN" => some 0x10#8
  | "BLEN" => some 0x14#8
  | "BYTES_LO" => some 0x18#8
  | "BYTES_HI" => some 0x1C#8
  | "ID" => some 0x60#8
  | _ => (laneWord t).orElse fun _ => (number t).bind fun v => if v < Config.win then some (BitVec.ofNat 8 v) else none

/-- A mnemonic without regard to case (30_encoding.md R54). -/
def mnemonic (t : List Char) : String := String.ofList (t.map Char.toLower)

/-- An assembly command from its tokens (30_encoding.md R54, R55). -/
def parseInsn : List (List Char) → Option Insn
  | [m] =>
    match mnemonic m with
    | "i2b" => some (.i2b none)
    | "b2i" => some .b2i
    | "b2i.s" => some .b2is
    | "swp" => some (.swp none)
    | "by2b" => some .by2b
    | "b2by" => some .b2by
    | "b2i.u" => some .b2iu
    | "bswap" => some .bswap
    | "bitrev" => some .bitrev
    | _ => none
  | [m, t] =>
    (number t).bind fun n =>
      match mnemonic m with
      | "i2b" => some (.i2b (some n))
      | "swp" => some (.swp (some n))
      | ".word" => some (.word n)
      | "zext" => some (.zext n)
      | "sext" => some (.sext n)
      | _ => none
  | _ => none

/-- One statement of a host program from its tokens. A command may stand without `cmd`, as in 95_test_vectors.md. -/
def parseTokens : List (List Char) → Option Stmt
  | [m, o, v] =>
    if mnemonic m = "wr" then (offsetOf o).bind fun off => (wordOf v).map fun w => .wr off w
    else if mnemonic m = "cmd" then (parseInsn [o, v]).map .cmd
    else none
  | [m, o] =>
    if mnemonic m = "rd" then (offsetOf o).map .rd
    else if mnemonic m = "cmd" then (parseInsn [o]).map .cmd
    else (parseInsn [m, o]).map .cmd
  | [m] => (parseInsn [m]).map .cmd
  | _ => none

/-- One statement of a host program from its text. -/
def parse (line : List Char) : Option Stmt := parseTokens (tokensFrom [] line)

end Sys2Proof.Asm
end

