-- ==== Sys2Proof/Machine/Bus.lean ====
section
/-! DEFINITION. Host addresses: how an access at a host address reaches the port (20_memory.md rules R27, R37). -/

namespace Sys2Proof.Machine

/-- An access by its host address, before the unit has decoded it. -/
structure BusAccess where
  addr : Nat
  size : Size
  op : AccessOp
  deriving DecidableEq, Repr

/-- MemRead(addr, 4) (20_memory.md R27). -/
def memRead (addr : Nat) : BusAccess := ⟨addr, .four, .read⟩

/-- MemWrite(addr, 4, v) (20_memory.md R27). -/
def memWrite (addr : Nat) (v : Word) : BusAccess := ⟨addr, .four, .write v⟩

/-- The unit decodes [BASE, BASE+256) and nothing else; an access elsewhere never reaches its port (20_memory.md
R27). BASE is 256-aligned, so the offset is the low 8 bits of the address (log 2). -/
def BusAccess.toPort (b : BusAccess) : Option PortEvent :=
  if Config.base ≤ b.addr ∧ b.addr < Config.base + Config.win then
    some (.access ⟨BitVec.ofNat 8 b.addr, b.size, b.op⟩)
  else none

/-- The access arrives at the port after everything already there (20_memory.md R38). -/
def State.issue (b : BusAccess) (s : State) : State := { s with port := s.port ++ b.toPort.toList }

end Sys2Proof.Machine
end

