-- ==== Sys2Proof/Machine/Source.lean ====
section
/-! DEFINITION. The source's own algorithm for int_to_bits, as 40_int_bits.md rule R59 quotes it, kept beside the
model's definition so that the two can be proved equal. Nothing in the machine calls it. -/

namespace Sys2Proof.Source

/-- "If `number` is negative, `number += 2^width`" (40_int_bits.md R59). -/
def adjust (number : Int) (width : Nat) : Int := if number < 0 then number + 2 ^ width else number

/-- "Fill the result right-to-left: repeatedly take the least significant bit, shift `number` right, move one position
left, until either `number` becomes 0 or all `width` positions are filled" (40_int_bits.md R59). `result` holds the
positions filled so far; the positions never reached stay 0. The least significant bit and the right shift are read in
two's complement (90_conflicts.md C1), and x >> 1 is floor division (00_scope.md R9). -/
def fill (number : Int) (left : Nat) (result : List Nat) : List Nat :=
  match left with
  | 0 => result
  | k + 1 =>
    if number = 0 then List.replicate (k + 1) 0 ++ result
    else fill (number / 2) k ((number % 2).toNat :: result)

/-- `int_to_bits(number, width)` (40_int_bits.md R59). -/
def intToBits (number : Int) (width : Nat) : List Nat := fill (adjust number width) width []

end Sys2Proof.Source
end

