-- ==== Sys2Proof/Safety.lean ====
section
/-! DEFINITION. The terms the statements use: the invariant, runs in which the host keeps off the unit during reset,
and states that agree on what a command reads. -/

namespace Sys2Proof.Machine

/-- While reset is asserted every register holds its reset value (70_reset_and_hazards.md R89). -/
def ResetHeld (s : State) : Prop := s.inReset = true → s = { State.reset with port := s.port, responses := s.responses, inReset := true }

/-- The invariant of the unit: ID is the constant (10_state.md R20); ERR is one of the codes 0..5, "values 6 and 7 are
never produced", and ERRIDX, an index in 0..63, is 0 but for InvalidBitValue and InvalidBitPattern (10_state.md R19,
60_exceptions.md R69); and asserted reset holds the registers at their reset values (70_reset_and_hazards.md R89). -/
structure Inv (s : State) : Prop where
  ident : s.idReg = 0x42430701#32
  errCode : s.status.err.toNat ≤ 5
  errIdxRange : s.status.errIdx.toNat ≤ 63
  errIdxUse : s.status.errIdx ≠ 0 → s.status.err = 1 ∨ s.status.err = 3
  resetHeld : ResetHeld s

/-- The host makes no access while reset is asserted (20_memory.md R45, 70_reset_and_hazards.md R92), read along the
events still to come; the Bool says whether reset is asserted now. -/
def Disciplined : Bool → List PortEvent → Prop
  | _, [] => True
  | inReset, .access _ :: rest => inReset = false ∧ Disciplined inReset rest
  | _, .assertReset :: rest => Disciplined true rest
  | _, .releaseReset :: rest => Disciplined false rest

/-- The state with one more event in front of everything at the port. -/
def State.offer (e : PortEvent) (s : State) : State := { s with port := e :: s.port }

/-- An aligned 4-byte read at an offset of the window, as a port event. -/
def rd (off : Offset) : PortEvent := .access ⟨off, .four, .read⟩

/-- An aligned 4-byte write at an offset of the window, as a port event. -/
def wr (off : Offset) (v : Word) : PortEvent := .access ⟨off, .four, .write v⟩

/-- Commands run one after the other, with nothing in between. -/
def execSeq : List Instr → State → Host.Outcome State Fault Refusal
  | [], s => .next s
  | i :: rest, s =>
    match exec i s with
    | .next t => execSeq rest t
    | .fault f => .fault f
    | .refused r => .refused r

/-- 30_encoding.md R51's definition of an illegal word, clause by clause. -/
def IllegalWord (c : Word) : Prop :=
  c.extractLsb' 15 17 ≠ 0 ∨ c.extractLsb' 5 3 ≠ 0
    ∨ (c.extractLsb' 0 4).toNat ∉ [1, 2, 3, 4, 5]
    ∨ (c.getLsbD 4 = true ∧ (c.extractLsb' 0 4).toNat ≠ 2)
    ∨ (c.extractLsb' 8 7 ≠ 0 ∧ (c.extractLsb' 0 4).toNat ∈ [2, 4, 5])

/-- Two states agree on the sequence in LANE. -/
def SameSequence (s t : State) : Prop := s.llen = t.llen ∧ s.sequence = t.sequence

/-- Two states agree on every register a command reads (10_state.md R24's column "reads"). -/
def SameReads : Instr → State → State → Prop
  | .i2b _, s, t => s.int = t.int
  | .b2i, s, t => SameSequence s t
  | .b2is, s, t => SameSequence s t
  | .swp _, s, t => SameSequence s t
  | .by2b, s, t => s.blen = t.blen ∧ s.byteSequence = t.byteSequence
  | .b2by, s, t => SameSequence s t

/-- What a command may write on success, besides STATUS (10_state.md R24's column "writes on success"): t is s but for
those registers and STATUS. -/
def WritesOnly : Instr → State → State → Prop
  | .i2b _, s, t => t = { s with lane := t.lane, llen := t.llen, status := t.status }
  | .b2i, s, t => t = { s with int := t.int, status := t.status }
  | .b2is, s, t => t = { s with int := t.int, status := t.status }
  | .swp _, s, t => t = { s with lane := t.lane, status := t.status } ∧ ∀ i, s.llen.toNat ≤ i → t.laneAt i = s.laneAt i
  | .by2b, s, t => t = { s with lane := t.lane, llen := t.llen, status := t.status }
  | .b2by, s, t => t = { s with bytes := t.bytes, blen := t.blen, status := t.status }

/-- Two results of one command agree on everything it writes on success (10_state.md R24). -/
def SameWrites : Instr → State → State → Prop
  | .i2b _, s, t => s.lane = t.lane ∧ s.llen = t.llen
  | .b2i, s, t => s.int = t.int
  | .b2is, s, t => s.int = t.int
  | .swp _, s, t => s.sequence = t.sequence
  | .by2b, s, t => s.lane = t.lane ∧ s.llen = t.llen
  | .b2by, s, t => s.bytes = t.bytes ∧ s.blen = t.blen

/-- t is s but for STATUS: what an error changes (60_exceptions.md R77). -/
def OnlyStatus (s t : State) : Prop := t = { s with status := t.status }

/-- STATUS of a successful command (60_exceptions.md R76): ERR = 0, ERRIDX = 0, ERRSEEN as before. -/
def StatusSuccess (s t : State) : Prop := t.status = ⟨0, 0, s.status.errSeen⟩

/-- The command raised the error of that code and index (60_exceptions.md R76, R77): STATUS says so, ERRSEEN is set,
and nothing else has changed. -/
def Raised (code : BitVec 3) (idx : Nat) (s t : State) : Prop :=
  t = { s with status := ⟨code, BitVec.ofNat 7 idx, true⟩ }

/-- A count of a legal command is outside the hardware's range (60_exceptions.md R74's table). -/
def OutOfRange : Instr → State → Prop
  | .i2b w, _ => 64 < w
  | .b2i, s => 64 < s.llen.toNat
  | .b2is, s => 64 < s.llen.toNat
  | .swp g, s => g = 0 ∨ 64 < s.llen.toNat
  | .by2b, s => 8 < s.blen.toNat
  | .b2by, s => 64 < s.llen.toNat

/-- Two states agree on every register of 10_state.md R13. -/
structure SameRegisters (s t : State) : Prop where
  int : s.int = t.int
  lane : s.lane = t.lane
  llen : s.llen = t.llen
  bytes : s.bytes = t.bytes
  blen : s.blen = t.blen
  status : s.status = t.status
  ident : s.idReg = t.idReg

/-- The value of a lane that is a Bit, as a number (40_int_bits.md R57), 0 for one that is none. -/
def bitValue (e : Byte) : Nat := ((norm e).getD false).toNat

/-- Some lane of the sequence is not accepted, and i is the lowest such index (60_exceptions.md R70, R72). -/
def FirstBadLane (accepts : Byte → Prop) (s : State) (i : Nat) : Prop :=
  i < s.llen.toNat ∧ ¬ accepts (s.laneAt i) ∧ ∀ j, j < i → accepts (s.laneAt j)

/-- A lane value that is a Bit (40_int_bits.md R57): one of the four encodings. -/
def IsBit (e : Byte) : Prop := e = 0x00#8 ∨ e = 0x01#8 ∨ e = 0x30#8 ∨ e = 0x31#8

/-- A canonical lane value (00_scope.md R11). -/
def IsCanonicalLane (e : Byte) : Prop := e = 0x00#8 ∨ e = 0x01#8

end Sys2Proof.Machine
end

