-- ==== Sys2Proof/Certificates/Slice0/Obligations.lean ====
section
/-! DEFINITION. The statements for the provers, from the spec's numbered rules. -/

open Sys2Proof Sys2Proof.Machine

/-! ## The command word (30_encoding.md) -/

/-- Sample words of every command, written from 30_encoding.md's map, decode to the command they stand for. -/
def Obligations.SampleWordsDecode : Prop :=
  decode 0x00000501#32 = .ok (.i2b 5) ∧ decode 0x00002001#32 = .ok (.i2b 32) ∧ decode 0x00004001#32 = .ok (.i2b 64)
    ∧ decode 0x00007F01#32 = .ok (.i2b 127) ∧ decode 0x00000002#32 = .ok .b2i ∧ decode 0x00000012#32 = .ok .b2is
    ∧ decode 0x00000803#32 = .ok (.swp 8) ∧ decode 0x00000103#32 = .ok (.swp 1) ∧ decode 0x00000003#32 = .ok (.swp 0)
    ∧ decode 0x00000004#32 = .ok .by2b ∧ decode 0x00000005#32 = .ok .b2by

/-- Decoding the word of a well-formed command gives the command back, its count at every value of N. -/
def Obligations.DecodeOfEncodeIsIdentity : Prop :=
  ∀ i : Instr, WellFormed i = true → decode (encode i) = .ok i

/-- A word that decodes is the word of the well-formed command it decodes to: no bit of it is dropped, and no two
words are one command. -/
def Obligations.EncodeOfDecodeIsIdentity : Prop :=
  ∀ (c : Word) (i : Instr), decode c = .ok i → WellFormed i = true ∧ encode i = c

/-- 30_encoding.md R56: a word is command X exactly when it matches X's row, the rows select disjoint sets, a word that
matches none is illegal by R51 and the other way round, and the sample encodings are as listed. -/
def Obligations.OpcodeMapSelectsByMask : Prop :=
  (∀ (c : Word) (n : Nat), decode c = .ok (.i2b n) ↔ c &&& 0xFFFF80FF#32 = 0x00000001#32 ∧ n = (c.extractLsb' 8 7).toNat)
    ∧ (∀ c : Word, decode c = .ok .b2i ↔ c &&& 0xFFFFFFFF#32 = 0x00000002#32)
    ∧ (∀ c : Word, decode c = .ok .b2is ↔ c &&& 0xFFFFFFFF#32 = 0x00000012#32)
    ∧ (∀ (c : Word) (n : Nat), decode c = .ok (.swp n) ↔ c &&& 0xFFFF80FF#32 = 0x00000003#32 ∧ n = (c.extractLsb' 8 7).toNat)
    ∧ (∀ c : Word, decode c = .ok .by2b ↔ c &&& 0xFFFFFFFF#32 = 0x00000004#32)
    ∧ (∀ c : Word, decode c = .ok .b2by ↔ c &&& 0xFFFFFFFF#32 = 0x00000005#32)
    ∧ (∀ c : Word, [opcodeRow (.i2b 0), opcodeRow .b2i, opcodeRow .b2is, opcodeRow (.swp 0), opcodeRow .by2b,
        opcodeRow .b2by].Pairwise fun r q => ¬ (r.selects c = true ∧ q.selects c = true))
    ∧ (∀ c : Word, IllegalWord c ↔ ∀ i : Instr, (opcodeRow i).selects c = false)
    ∧ encode (.i2b 5) = 0x00000501#32 ∧ encode (.i2b 32) = 0x00002001#32 ∧ encode (.i2b 64) = 0x00004001#32
    ∧ encode (.swp 8) = 0x00000803#32 ∧ encode (.swp 1) = 0x00000103#32 ∧ encode (.swp 2) = 0x00000203#32

/-- 30_encoding.md R51 and 60_exceptions.md R73: the illegal words are the ones the decoder refuses; a CMD write of
one, in any state with reset released, sets STATUS to IllegalCommand with index 0 and changes no other register; no
other word raises IllegalCommand. That the failed write is answered without a bus error is the model's own (log 5,
DEDUCED), and neither rule is cited for it. -/
def Obligations.IllegalWordRaisesIllegalCommand : Prop :=
  ∀ c : Word,
    (IllegalWord c ↔ ∃ why, decode c = .error why)
      ∧ ∀ s : State, s.inReset = false →
        (IllegalWord c → step (s.offer (wr 0x00 c)) = .next ({ s with status := ⟨4, 0, true⟩ }.respond (.write false)))
        ∧ (¬ IllegalWord c → ∃ t : State, step (s.offer (wr 0x00 c)) = .next t ∧ t.status.err ≠ 4)

/-! ## The step -/

/-- A CMD write of a word that decodes runs exactly that command in the state the port finds, and is answered after the
command has completed: both when the access stands at the port and when withFetchWord puts it there. The port list and
withFetchWord are the model's choice (log 1), the list of responses too (log 3), and the response without a bus error
where the command ends in an error is the model's own (log 5, DEDUCED). -/
def Obligations.StepRunsDecodedCommand : Prop :=
  (∀ (s t : State) (c : Word) (i : Instr), s.inReset = false → decode c = .ok i → exec i s = .next t →
      step (s.offer (wr 0x00 c)) = .next { t with responses := t.responses ++ [.write false] })
    ∧ (∀ (s t : State) (c : Word) (i : Instr), decode c = .ok i → exec i { s with inReset := false } = .next t →
      step (s.withFetchWord 32 c.toNat) = .next { t with responses := t.responses ++ [.write false] })

/-- With nothing at the inputs a step changes nothing: all state is kept between accesses. The idle step is the model's
choice (log 1). -/
def Obligations.IdleStepKeepsState : Prop :=
  ∀ s : State, s.port = [] → step s = .next s

/-! ## The commands -/

/-- 40_int_bits.md R58, I2B: its encoding and assembly; OperandRange(0) for w above 64; otherwise the low w bits of INT
in lanes 0..w-1, most significant first, 0x00 in the other lanes, LLEN = w, STATUS of success, and nothing else
changed. -/
def Obligations.I2bTruncatesIntoLanes : Prop :=
  (∀ w : Nat, w < 128 → decode (0x00000001#32 ||| BitVec.ofNat 32 w <<< 8) = .ok (.i2b w))
    ∧ (∀ w : Nat, w ≤ 64 → Asm.assemble (.i2b (some w)) = some [0x00000001#32 ||| BitVec.ofNat 32 w <<< 8])
    ∧ Asm.assemble (.i2b none) = some [0x00002001#32]
    ∧ (∀ (s : State) (w : Nat), 64 < w → ∃ t : State, exec (.i2b w) s = .next t ∧ Raised 5 0 s t)
    ∧ (∀ (s : State) (w : Nat), w ≤ 64 → ∃ t : State, exec (.i2b w) s = .next t ∧ WritesOnly (.i2b w) s t ∧ StatusSuccess s t
        ∧ t.llen.toNat = w
        ∧ ∀ i, i < 64 → t.laneAt i = if i < w then (if s.int.getLsbD (w - 1 - i) then 0x01#8 else 0x00#8) else 0x00#8)

/-- 40_int_bits.md R60, B2I: its encoding and assembly; OperandRange(0) for LLEN above 64; InvalidBitValue at the first
lane of the sequence that is no Bit; otherwise INT is the unsigned value of the lanes, STATUS that of success, and
nothing else changes. -/
def Obligations.B2iReadsUnsigned : Prop :=
  decode 0x00000002#32 = .ok .b2i ∧ Asm.assemble .b2i = some [0x00000002#32] ∧ Asm.assemble .b2iu = some [0x00000002#32]
    ∧ ∀ s : State,
      (64 < s.llen.toNat → ∃ t : State, exec .b2i s = .next t ∧ Raised 5 0 s t)
      ∧ (∀ i, s.llen.toNat ≤ 64 → FirstBadLane IsBit s i → ∃ t : State, exec .b2i s = .next t ∧ Raised 1 i s t)
      ∧ (s.llen.toNat ≤ 64 → (∀ i, i < s.llen.toNat → IsBit (s.laneAt i)) →
        ∃ t : State, exec .b2i s = .next t ∧ WritesOnly .b2i s t ∧ StatusSuccess s t
          ∧ t.int.toNat = ∑ i ∈ Finset.range s.llen.toNat, bitValue (s.laneAt i) * 2 ^ (s.llen.toNat - 1 - i))

/-- 40_int_bits.md R61, B2I.S: its encoding and assembly; the errors of B2I; otherwise INT, read as two's complement, is
the unsigned value of the lanes after the first less 2^(L-1) when the first is a 1 and the unsigned value of all of
them when it is not, which is the sign extension of the L-bit word the lanes are; STATUS that of success, and nothing
else changes. -/
def Obligations.B2isReadsTwosComplement : Prop :=
  decode 0x00000012#32 = .ok .b2is ∧ Asm.assemble .b2is = some [0x00000012#32]
    ∧ ∀ s : State,
      (64 < s.llen.toNat → ∃ t : State, exec .b2is s = .next t ∧ Raised 5 0 s t)
      ∧ (∀ i, s.llen.toNat ≤ 64 → FirstBadLane IsBit s i → ∃ t : State, exec .b2is s = .next t ∧ Raised 1 i s t)
      ∧ (s.llen.toNat ≤ 64 → (∀ i, i < s.llen.toNat → IsBit (s.laneAt i)) →
        ∃ t : State, exec .b2is s = .next t ∧ WritesOnly .b2is s t ∧ StatusSuccess s t
          ∧ t.int.toInt =
            (if 1 ≤ s.llen.toNat ∧ bitValue (s.laneAt 0) = 1 then
              (∑ i ∈ Finset.Ico 1 s.llen.toNat, (bitValue (s.laneAt i) : Int) * 2 ^ (s.llen.toNat - 1 - i))
                - 2 ^ (s.llen.toNat - 1)
            else ∑ i ∈ Finset.range s.llen.toNat, (bitValue (s.laneAt i) : Int) * 2 ^ (s.llen.toNat - 1 - i))
          ∧ (1 ≤ s.llen.toNat → ∀ j, j < 64 →
            (t.int.getLsbD j = true ↔
              bitValue (s.laneAt (if j < s.llen.toNat then s.llen.toNat - 1 - j else 0)) = 1)))

/-- 41_swap.md R64, SWP: its encoding and assembly; OperandRange(0) for g = 0 or LLEN above 64; otherwise the runs of g
lanes of the sequence in reverse order, which is the rule's fixed permutation of the lanes; LANE[LLEN..63] and LLEN are
not written, STATUS is that of success, and nothing else changes. No lane value raises an error. -/
def Obligations.SwpReversesRuns : Prop :=
  (∀ g : Nat, g < 128 → decode (0x00000003#32 ||| BitVec.ofNat 32 g <<< 8) = .ok (.swp g))
    ∧ (∀ g : Nat, 1 ≤ g → g ≤ 127 → Asm.assemble (.swp (some g)) = some [0x00000003#32 ||| BitVec.ofNat 32 g <<< 8])
    ∧ Asm.assemble (.swp none) = some [0x00000803#32]
    ∧ (∀ (s : State) (g : Nat), g = 0 ∨ 64 < s.llen.toNat → ∃ t : State, exec (.swp g) s = .next t ∧ Raised 5 0 s t)
    ∧ (∀ (s : State) (g k r : Nat), 1 ≤ g → s.llen.toNat ≤ 64 → k = (s.llen.toNat + g - 1) / g →
      r = s.llen.toNat - (k - 1) * g →
        ∃ t : State, exec (.swp g) s = .next t ∧ WritesOnly (.swp g) s t ∧ StatusSuccess s t
          ∧ t.sequence = ((List.range k).reverse.flatMap fun j =>
              (s.sequence.drop (j * g)).take (min ((j + 1) * g) s.llen.toNat - j * g))
          ∧ ∀ p, p < s.llen.toNat → t.laneAt p =
              s.laneAt (if p < r then (k - 1) * g + p else (k - 2 - (p - r) / g) * g + (p - r) % g))

/-- 42_byte_codec.md R66, BY2B: its encoding and assembly; OperandRange(0) for BLEN above 8; otherwise lane 8k+i holds
bit 7-i of BYTE[k] for every byte of the sequence, the other lanes hold 0x00, LLEN = 8*BLEN, STATUS is that of
success, and nothing else changes. -/
def Obligations.By2bExpandsBytes : Prop :=
  decode 0x00000004#32 = .ok .by2b ∧ Asm.assemble .by2b = some [0x00000004#32]
    ∧ ∀ s : State,
      (8 < s.blen.toNat → ∃ t : State, exec .by2b s = .next t ∧ Raised 5 0 s t)
      ∧ (s.blen.toNat ≤ 8 →
        ∃ t : State, exec .by2b s = .next t ∧ WritesOnly .by2b s t ∧ StatusSuccess s t
          ∧ t.llen.toNat = 8 * s.blen.toNat
          ∧ (∀ k i, k < s.blen.toNat → i < 8 →
              t.laneAt (8 * k + i) = if (s.byteAt k).getLsbD (7 - i) then 0x01#8 else 0x00#8)
          ∧ ∀ j, 8 * s.blen.toNat ≤ j → j < 64 → t.laneAt j = 0x00#8)

/-- 42_byte_codec.md R67, B2BY: its encoding and assembly; OperandRange(0) for LLEN above 64, then MalformedLength(0)
for an LLEN that is no multiple of 8, then InvalidBitPattern at the first lane that is not 0x00 or 0x01; otherwise
BYTE[k] is the byte whose bits are lanes 8k..8k+7, the other bytes are 0x00, BLEN = LLEN/8, STATUS is that of success,
and nothing else changes. -/
def Obligations.B2byReducesLanes : Prop :=
  decode 0x00000005#32 = .ok .b2by ∧ Asm.assemble .b2by = some [0x00000005#32]
    ∧ ∀ s : State,
      (64 < s.llen.toNat → ∃ t : State, exec .b2by s = .next t ∧ Raised 5 0 s t)
      ∧ (s.llen.toNat ≤ 64 → s.llen.toNat % 8 ≠ 0 → ∃ t : State, exec .b2by s = .next t ∧ Raised 2 0 s t)
      ∧ (∀ i, s.llen.toNat ≤ 64 → s.llen.toNat % 8 = 0 → FirstBadLane IsCanonicalLane s i →
        ∃ t : State, exec .b2by s = .next t ∧ Raised 3 i s t)
      ∧ (s.llen.toNat ≤ 64 → s.llen.toNat % 8 = 0 → (∀ i, i < s.llen.toNat → IsCanonicalLane (s.laneAt i)) →
        ∃ t : State, exec .b2by s = .next t ∧ WritesOnly .b2by s t ∧ StatusSuccess s t
          ∧ t.blen.toNat = s.llen.toNat / 8
          ∧ (∀ k, k < s.llen.toNat / 8 →
              (t.byteAt k).toNat = ∑ i ∈ Finset.range 8, (s.laneAt (8 * k + i)).toNat * 2 ^ (7 - i))
          ∧ ∀ k, s.llen.toNat / 8 ≤ k → k < 8 → t.byteAt k = 0x00#8)

/-! ## Operands, the lookup table, and the laws of the families -/

/-- The table of `norm`: 0x00 and 0x30 are 0, 0x01 and 0x31 are 1, and the other 252 values are NONE. -/
def Obligations.NormAcceptsFourEncodings : Prop :=
  norm 0x00#8 = some false ∧ norm 0x30#8 = some false ∧ norm 0x01#8 = some true ∧ norm 0x31#8 = some true
    ∧ (∀ e : Byte, norm e = none ↔ e ≠ 0x00#8 ∧ e ≠ 0x30#8 ∧ e ≠ 0x01#8 ∧ e ≠ 0x31#8)

/-- The lookup table has 256 entries; entry v is EXP(v), whose element i is bit 7-i of v as 0x00 or 0x01; INV(p) is v
exactly when p = EXP(v), and for a pattern of 8 canonical lanes it is the sum of p[i]*2^(7-i). -/
def Obligations.LookupTableIsBijection : Prop :=
  lookupTable.length = 256
    ∧ (∀ v : Byte, lookupTable[v.toNat]? = some (expand v))
    ∧ (∀ v : Byte, (expand v).length = 8
        ∧ ∀ i, i < 8 → (expand v)[i]? = some (if v.getLsbD (7 - i) then 0x01#8 else 0x00#8))
    ∧ (∀ (p : List Byte) (v : Byte), compact p = some v ↔ expand v = p)
    ∧ (∀ p : List Byte, p.length = 8 → (∀ e ∈ p, IsCanonicalLane e) →
        ∃ v, compact p = some v ∧ v.toNat = ∑ i ∈ Finset.range 8, (p.getD i 0).toNat * 2 ^ (7 - i))

/-- 40_int_bits.md R62: for 0 ≤ w ≤ 64, `i2b w` leaves LLEN = w; `i2b w ; b2i` leaves in INT its low w bits,
zero-extended, and so INT itself when it was below 2^w; for w ≥ 1 `i2b w ; b2i.s` leaves the sign extension of the low
w bits, and so INT itself when its signed value was in the range of w bits. -/
def Obligations.IntegerRoundTrips : Prop :=
  ∀ (s : State) (w : Nat), w ≤ 64 →
    (∃ t : State, exec (.i2b w) s = .next t ∧ t.llen.toNat = w)
    ∧ (∃ t : State, execSeq [.i2b w, .b2i] s = .next t ∧ t.int = (s.int.setWidth w).setWidth 64
        ∧ (s.int.toNat < 2 ^ w → t.int.toNat = s.int.toNat))
    ∧ (1 ≤ w → ∃ t : State, execSeq [.i2b w, .b2is] s = .next t ∧ t.int = (s.int.setWidth w).signExtend 64
        ∧ (-2 ^ (w - 1) ≤ s.int.toInt → s.int.toInt < 2 ^ (w - 1) → t.int.toInt = s.int.toInt))

/-- 40_int_bits.md R59: for 0 ≤ w ≤ 64 the source's own algorithm, run on the signed or on the unsigned value of INT,
yields exactly the sequence I2B leaves, whatever the magnitude. Where the adjusted number is still negative, the
algorithm's low bits and shift are read in two's complement, as 90_conflicts.md C1 says (log 6, DEDUCED). -/
def Obligations.SourceAlgorithmYieldsI2bLanes : Prop :=
  ∀ (s : State) (w : Nat), w ≤ 64 →
    ∃ t : State, exec (.i2b w) s = .next t
      ∧ t.sequence.map BitVec.toNat = Source.intToBits s.int.toInt w
      ∧ t.sequence.map BitVec.toNat = Source.intToBits (s.int.toNat : Int) w

/-- 41_swap.md R65: SWP g twice restores the lanes when g divides LLEN (LLEN = 0 too), and SWP 1 for every LLEN; it
need not otherwise (a,b,c,d,e with g = 2); SWP keeps LLEN and every value as often as it was. -/
def Obligations.SwpLaws : Prop :=
  (∀ (s : State) (g : Nat), 1 ≤ g → s.llen.toNat ≤ 64 → s.llen.toNat % g = 0 →
      ∃ t : State, execSeq [.swp g, .swp g] s = .next t ∧ t.lane = s.lane)
    ∧ (∀ s : State, s.llen.toNat ≤ 64 → ∃ t : State, execSeq [.swp 1, .swp 1] s = .next t ∧ t.lane = s.lane)
    ∧ (∀ (s : State) (g : Nat), 1 ≤ g → s.llen.toNat ≤ 64 →
      ∃ t : State, exec (.swp g) s = .next t ∧ t.llen = s.llen ∧ t.sequence.Perm s.sequence)
    ∧ (∀ (s : State) (a b c d e : Byte), s.llen = 5 → s.sequence = [a, b, c, d, e] →
      ∃ t u : State, exec (.swp 2) s = .next t ∧ exec (.swp 2) t = .next u ∧ t.sequence = [e, c, d, a, b]
        ∧ u.sequence = [b, d, a, e, c])

/-- 42_byte_codec.md R68: `by2b ; b2by` restores BLEN and the byte-sequence with ERR = 0 and clears the other bytes;
`by2b` leaves LLEN = 8*BLEN; `b2by ; by2b` restores a canonical sequence and LLEN and clears the other lanes; EXP and
INV are inverse bijections; EXP agrees with `i2b 8` and INV with `b2i`. -/
def Obligations.ByteCodecLaws : Prop :=
  (∀ s : State, s.blen.toNat ≤ 8 →
      (∃ t : State, exec .by2b s = .next t ∧ t.llen.toNat = 8 * s.blen.toNat)
      ∧ ∃ t : State, execSeq [.by2b, .b2by] s = .next t ∧ t.blen = s.blen ∧ t.status.err = 0
        ∧ (∀ k, k < s.blen.toNat → t.byteAt k = s.byteAt k)
        ∧ ∀ k, s.blen.toNat ≤ k → k < 8 → t.byteAt k = 0x00#8)
    ∧ (∀ s : State, s.llen.toNat ≤ 64 → s.llen.toNat % 8 = 0 → (∀ i, i < s.llen.toNat → IsCanonicalLane (s.laneAt i)) →
      ∃ t : State, execSeq [.b2by, .by2b] s = .next t ∧ t.llen = s.llen
        ∧ (∀ i, i < s.llen.toNat → t.laneAt i = s.laneAt i)
        ∧ ∀ i, s.llen.toNat ≤ i → i < 64 → t.laneAt i = 0x00#8)
    ∧ (∀ v : Byte, compact (expand v) = some v)
    ∧ (∀ p : List Byte, p.length = 8 → (∀ e ∈ p, IsCanonicalLane e) → ∃ v, compact p = some v ∧ expand v = p)
    ∧ (∀ s : State, ∃ t : State, exec (.i2b 8) s = .next t ∧ t.sequence = expand (s.int.extractLsb' 0 8))
    ∧ (∀ s : State, s.llen = 8 → (∀ i, i < 8 → IsCanonicalLane (s.laneAt i)) →
      ∃ t : State, exec .b2i s = .next t ∧ compact s.sequence = some (t.int.extractLsb' 0 8))

/-! ## The register window (20_memory.md, 10_state.md) -/

/-- 20_memory.md R32: a write to INT_LO or INT_HI replaces that half of INT and nothing else; a read returns it. -/
def Obligations.IntIsTwoWords : Prop :=
  ∀ (s : State) (v : Word), s.inReset = false →
    (∃ t : State, step (s.offer (wr 0x08 v)) = .next (t.respond (.write false)) ∧ t = { s with int := t.int }
      ∧ t.int.extractLsb' 0 32 = v ∧ t.int.extractLsb' 32 32 = s.int.extractLsb' 32 32)
    ∧ (∃ t : State, step (s.offer (wr 0x0C v)) = .next (t.respond (.write false)) ∧ t = { s with int := t.int }
      ∧ t.int.extractLsb' 32 32 = v ∧ t.int.extractLsb' 0 32 = s.int.extractLsb' 0 32)
    ∧ step (s.offer (rd 0x08)) = .next (s.respond (.read (s.int.extractLsb' 0 32) false))
    ∧ step (s.offer (rd 0x0C)) = .next (s.respond (.read (s.int.extractLsb' 32 32) false))

/-- 20_memory.md R33: BYTES_LO holds BYTE[0..3] and BYTES_HI holds BYTE[4..7], the lower index in the lower bits; a
write to one replaces its four bytes and nothing else. -/
def Obligations.BytesArePackedLittleEndian : Prop :=
  ∀ (s : State) (v : Word), s.inReset = false →
    (∃ t : State, step (s.offer (wr 0x18 v)) = .next (t.respond (.write false)) ∧ t = { s with bytes := t.bytes }
      ∧ ∀ j, j < 4 → t.byteAt j = v.extractLsb' (8 * j) 8 ∧ t.byteAt (4 + j) = s.byteAt (4 + j))
    ∧ (∃ t : State, step (s.offer (wr 0x1C v)) = .next (t.respond (.write false)) ∧ t = { s with bytes := t.bytes }
      ∧ ∀ j, j < 4 → t.byteAt (4 + j) = v.extractLsb' (8 * j) 8 ∧ t.byteAt j = s.byteAt j)
    ∧ step (s.offer (rd 0x18)) =
        .next (s.respond (.read (s.byteAt 3 ++ s.byteAt 2 ++ s.byteAt 1 ++ s.byteAt 0) false))
    ∧ step (s.offer (rd 0x1C)) =
        .next (s.respond (.read (s.byteAt 7 ++ s.byteAt 6 ++ s.byteAt 5 ++ s.byteAt 4) false))

/-- 20_memory.md R34: LANEWk, k = 0..15, at 0x20 + 4k holds LANE[4k..4k+3], LANE[4k] in bits 7:0; a write replaces
those four lanes and nothing else. -/
def Obligations.LanesArePackedLittleEndian : Prop :=
  ∀ (s : State) (v : Word) (k : Nat), s.inReset = false → k < 16 →
    (∃ t : State, step (s.offer (wr (BitVec.ofNat 8 (0x20 + 4 * k)) v)) = .next (t.respond (.write false))
      ∧ t = { s with lane := t.lane }
      ∧ (∀ j, j < 4 → t.laneAt (4 * k + j) = v.extractLsb' (8 * j) 8)
      ∧ ∀ i, i < 64 → i / 4 ≠ k → t.laneAt i = s.laneAt i)
    ∧ step (s.offer (rd (BitVec.ofNat 8 (0x20 + 4 * k)))) =
        .next (s.respond (.read (s.laneAt (4 * k + 3) ++ s.laneAt (4 * k + 2) ++ s.laneAt (4 * k + 1) ++ s.laneAt (4 * k))
          false))

/-- 20_memory.md R29: an access that is not of 4 bytes at a multiple of 4 changes no register and gets a bus error, with
data 0 for a read; every other access is answered without one. That this holds of a CMD write whose
command ends in an error too is the model's own (log 5, DEDUCED), and R29 is not cited for it. -/
def Obligations.UnalignedOrNarrowAccessIsBusError : Prop :=
  ∀ (s : State) (a : Access), s.inReset = false →
    (¬ (a.size = .four ∧ a.off.toNat % 4 = 0) →
      (a.op = .read → step (s.offer (.access a)) = .next (s.respond (.read 0 true)))
      ∧ ∀ v, a.op = .write v → step (s.offer (.access a)) = .next (s.respond (.write true)))
    ∧ (a.size = .four ∧ a.off.toNat % 4 = 0 →
      ∃ t : State, (step (s.offer (.access a)) = .next (t.respond (.write false))
        ∨ ∃ v, step (s.offer (.access a)) = .next (t.respond (.read v false))))

/-- 20_memory.md R30: a reserved offset reads 0 and ignores writes; the reserved bits of STATUS, LLEN and BLEN read 0,
and two writes that differ only in reserved bits do the same. -/
def Obligations.ReservedOffsetsAndBits : Prop :=
  ∀ s : State, s.inReset = false →
    (∀ (off : Offset) (v : Word), 0x64 ≤ off.toNat → off.toNat % 4 = 0 →
      step (s.offer (rd off)) = .next (s.respond (.read 0 false))
      ∧ step (s.offer (wr off v)) = .next (s.respond (.write false)))
    ∧ (∃ v, step (s.offer (rd 0x04)) = .next (s.respond (.read v false))
        ∧ ∀ i, i < 32 → (3 ≤ i ∧ i ≤ 7 ∨ i = 15 ∨ 17 ≤ i) → v.getLsbD i = false)
    ∧ (∃ v, step (s.offer (rd 0x10)) = .next (s.respond (.read v false)) ∧ ∀ i, 7 ≤ i → v.getLsbD i = false)
    ∧ (∃ v, step (s.offer (rd 0x14)) = .next (s.respond (.read v false)) ∧ ∀ i, 4 ≤ i → v.getLsbD i = false)
    ∧ ∀ v u : Word,
      ((∀ i, i < 32 → ¬ (3 ≤ i ∧ i ≤ 7 ∨ i = 15 ∨ 17 ≤ i) → v.getLsbD i = u.getLsbD i) →
        step (s.offer (wr 0x04 v)) = step (s.offer (wr 0x04 u)))
      ∧ ((∀ i, i < 7 → v.getLsbD i = u.getLsbD i) → step (s.offer (wr 0x10 v)) = step (s.offer (wr 0x10 u)))
      ∧ ((∀ i, i < 4 → v.getLsbD i = u.getLsbD i) → step (s.offer (wr 0x14 v)) = step (s.offer (wr 0x14 u)))

/-- 20_memory.md R31: an aligned read changes no register, so repeating it returns the same value; a write to a data
register is read back (cut to the width of LLEN and BLEN), shows at no other offset, and leaves STATUS alone; a write
to STATUS clears ERRSEEN if bit 16 is 1 and does nothing else; a write to ID or a reserved offset does nothing; a write
to CMD runs the command. That a CMD write is answered without a bus error when its command ends in an error, or its word
is illegal, is the model's own (log 5, DEDUCED), and R31 is not cited for it. -/
def Obligations.AlignedAccessEffects : Prop :=
  ∀ s : State, s.inReset = false →
    (∀ off : Offset, off.toNat % 4 = 0 → ∃ v, step (s.offer (rd off)) = .next (s.respond (.read v false))
        ∧ ∀ rs, step ({ s with responses := rs }.offer (rd off)) =
            .next ({ s with responses := rs }.respond (.read v false)))
    ∧ (∀ (off : Offset) (v : Word), off.toNat % 4 = 0 → 0x08 ≤ off.toNat → off.toNat < 0x60 →
      ∃ t : State, step (s.offer (wr off v)) = .next (t.respond (.write false)) ∧ t.status = s.status
        ∧ step (t.offer (rd off)) = .next (t.respond (.read
            (if off = 0x10 then v &&& 0x0000007F#32 else if off = 0x14 then v &&& 0x0000000F#32 else v) false))
        ∧ ∀ (off' : Offset) (u : Word), off'.toNat % 4 = 0 → off' ≠ off →
          step (s.offer (rd off')) = .next (s.respond (.read u false)) →
          step (t.offer (rd off')) = .next (t.respond (.read u false)))
    ∧ (∀ v : Word, step (s.offer (wr 0x04 v)) =
        .next ({ s with status := ⟨s.status.err, s.status.errIdx, s.status.errSeen && !v.getLsbD 16⟩ }.respond (.write false)))
    ∧ (∀ (off : Offset) (v : Word), off.toNat % 4 = 0 → 0x60 ≤ off.toNat →
      step (s.offer (wr off v)) = .next (s.respond (.write false)))
    ∧ (∀ (c : Word) (i : Instr) (t : State), decode c = .ok i → exec i s = .next t →
      step (s.offer (wr 0x00 c)) = .next (t.respond (.write false)))
    ∧ ∀ (c : Word) (why : Illegal), decode c = .error why →
      step (s.offer (wr 0x00 c)) = .next ({ s with status := ⟨4, 0, true⟩ }.respond (.write false))

/-- The word a read of STATUS returns: ERR in bits 2:0, ERRIDX in bits 14:8, ERRSEEN in bit 16, 0 elsewhere; a read of
CMD returns 0 and runs nothing. -/
def Obligations.StatusAndCmdReadAsMapped : Prop :=
  ∀ s : State, s.inReset = false →
    (∃ v : Word, step (s.offer (rd 0x04)) = .next (s.respond (.read v false))
      ∧ v.toNat = s.status.err.toNat + 2 ^ 8 * s.status.errIdx.toNat + 2 ^ 16 * s.status.errSeen.toNat)
    ∧ step (s.offer (rd 0x00)) = .next (s.respond (.read 0 false))

/-- 10_state.md R20: ID is 0x4243_0701 with the rule's three fields, at reset and after every event; a read returns it
and a write is ignored. -/
def Obligations.IdIsConstant : Prop :=
  (0x42430701#32).extractLsb' 16 16 = 0x4243#16 ∧ (0x42430701#32).extractLsb' 8 8 = 0x07#8
    ∧ (0x42430701#32).extractLsb' 0 8 = 0x01#8 ∧ State.reset.idReg = 0x42430701#32
    ∧ ∀ s : State, s.idReg = 0x42430701#32 →
      (∀ t, step s = .next t → t.idReg = 0x42430701#32)
      ∧ (s.inReset = false → step (s.offer (rd 0x60)) = .next (s.respond (.read 0x42430701#32 false))
        ∧ ∀ v, step (s.offer (wr 0x60 v)) = .next (s.respond (.write false)))

/-- 10_state.md R16: a host write stores bits 6:0 in LLEN and a read returns them with 0 above; a command that reads an
LLEN of 65..127 raises OperandRange and changes nothing else; I2B w leaves w and BY2B leaves 8*BLEN; reset leaves 0. -/
def Obligations.LlenHoldsAnySevenBits : Prop :=
  State.reset.llen = 0
    ∧ (∀ (s : State) (v : Word), s.inReset = false →
      (∃ t : State, step (s.offer (wr 0x10 v)) = .next (t.respond (.write false)) ∧ t = { s with llen := v.extractLsb' 0 7 })
      ∧ ∃ u : Word, step (s.offer (rd 0x10)) = .next (s.respond (.read u false)) ∧ u.toNat = s.llen.toNat)
    ∧ (∀ (s : State) (i : Instr), i = .b2i ∨ i = .b2is ∨ i = .b2by ∨ (∃ g, i = .swp g) → 65 ≤ s.llen.toNat →
      ∃ t : State, exec i s = .next t ∧ Raised 5 0 s t)
    ∧ (∀ (s : State) (w : Nat), w ≤ 64 → ∃ t : State, exec (.i2b w) s = .next t ∧ t.llen.toNat = w)
    ∧ (∀ s : State, s.blen.toNat ≤ 8 → ∃ t : State, exec .by2b s = .next t ∧ t.llen.toNat = 8 * s.blen.toNat ∧ t.llen.toNat ≤ 64)

/-- 10_state.md R18: a host write stores bits 3:0 in BLEN and a read returns them with 0 above; BY2B, the only command
that reads it, raises OperandRange for 9..15; B2BY leaves LLEN/8, at most 8; reset leaves 0. -/
def Obligations.BlenHoldsAnyFourBits : Prop :=
  State.reset.blen = 0
    ∧ (∀ (s : State) (v : Word), s.inReset = false →
      (∃ t : State, step (s.offer (wr 0x14 v)) = .next (t.respond (.write false)) ∧ t = { s with blen := v.extractLsb' 0 4 })
      ∧ ∃ u : Word, step (s.offer (rd 0x14)) = .next (s.respond (.read u false)) ∧ u.toNat = s.blen.toNat)
    ∧ (∀ s : State, 9 ≤ s.blen.toNat → ∃ t : State, exec .by2b s = .next t ∧ Raised 5 0 s t)
    ∧ (∀ s : State, s.blen.toNat ≤ 8 → ∃ t : State, exec .by2b s = .next t ∧ t.status.err = 0)
    ∧ (∀ (s : State) (i : Instr) (b : BitVec 4), i ≠ .by2b →
      ∃ t u : State, exec i s = .next t ∧ exec i { s with blen := b } = .next u ∧ t.status = u.status
        ∧ u = { t with blen := u.blen })
    ∧ (∀ s : State, ∃ t : State, exec .b2by s = .next t
      ∧ (t.status.err = 0 → t.blen.toNat = s.llen.toNat / 8 ∧ t.blen.toNat ≤ 8))

/-- The unit decodes [BASE, BASE+256) and nothing else, BASE is a multiple of 256, and MemRead and MemWrite of
BASE + off reach the port as the access at off, after everything already there. -/
def Obligations.BaseSelectsTheWindow : Prop :=
  Config.base % 256 = 0
    ∧ (∀ (s : State) (off : Offset) (v : Word),
      (s.issue (memWrite (Config.base + off.toNat) v)).port = s.port ++ [wr off v]
      ∧ (s.issue (memRead (Config.base + off.toNat))).port = s.port ++ [rd off])
    ∧ (∀ (s : State) (b : BusAccess), b.addr < Config.base ∨ Config.base + 256 ≤ b.addr → s.issue b = s)

/-! ## Errors and STATUS (60_exceptions.md) -/

/-- 60_exceptions.md R74: a legal command ends in OperandRange exactly when a count it uses is outside the hardware's
range, by the rule's table, and then ERRIDX = 0. -/
def Obligations.OperandRangeExactlyOutOfRange : Prop :=
  ∀ (i : Instr) (s : State), ∃ t : State, exec i s = .next t ∧ (t.status.err = 5 ↔ OutOfRange i s)
    ∧ (OutOfRange i s → t.status.errIdx = 0)

/-- 60_exceptions.md R77: a CMD write, of any word in any state with reset released, that ends in an error changes STATUS
and no other register. That such a write is answered without a bus error is the model's own (log 5, DEDUCED), and R77 is
not cited for it. -/
def Obligations.ErrorsChangeOnlyStatus : Prop :=
  ∀ (s : State) (c : Word), s.inReset = false →
    ∃ t : State, step (s.offer (wr 0x00 c)) = .next (t.respond (.write false)) ∧ (t.status.err ≠ 0 → OnlyStatus s t)

/-- 60_exceptions.md R69 and R76: a CMD write, of any word in any state with reset released, leaves ERR = 0, ERRIDX = 0
and ERRSEEN as it was, or, for one of the table's causes, that error's code and index with ERRSEEN set; the next read of
STATUS returns that outcome. That a failed write is answered without a bus error is the model's own (log 5, DEDUCED), and
neither rule is cited for it. -/
def Obligations.EveryCommandWritesStatus : Prop :=
  ∀ (s : State) (c : Word), s.inReset = false →
    ∃ t : State, step (s.offer (wr 0x00 c)) = .next (t.respond (.write false))
      ∧ (t.status = ⟨0, 0, s.status.errSeen⟩
        ∨ IllegalWord c ∧ t.status = ⟨4, 0, true⟩
        ∨ ∃ i, decode c = .ok i ∧
            (OutOfRange i s ∧ t.status = ⟨5, 0, true⟩
            ∨ i = .b2by ∧ s.llen.toNat % 8 ≠ 0 ∧ t.status = ⟨2, 0, true⟩
            ∨ ∃ k : Nat, k < 64 ∧
                ((i = .b2i ∨ i = .b2is) ∧ FirstBadLane IsBit s k ∧ t.status = ⟨1, BitVec.ofNat 7 k, true⟩
                ∨ i = .b2by ∧ FirstBadLane IsCanonicalLane s k ∧ t.status = ⟨3, BitVec.ofNat 7 k, true⟩)))
      ∧ ∃ v : Word, step ((t.respond (.write false)).offer (rd 0x04)) =
          .next ((t.respond (.write false)).respond (.read v false))
        ∧ v.extractLsb' 0 3 = t.status.err ∧ v.extractLsb' 8 7 = t.status.errIdx ∧ v.getLsbD 16 = t.status.errSeen

/-- 60_exceptions.md R70, R71, R72, R78: which error B2I, B2I.S and B2BY report, and no other: IllegalCommand before any
of them, then OperandRange, then MalformedLength (B2BY only), then the lowest offending lane of the sequence; none of
them leaves a partial result. -/
def Obligations.ErrorPriority : Prop :=
  (∀ (s : State) (c : Word), s.inReset = false → IllegalWord c →
      ∃ t : State, step (s.offer (wr 0x00 c)) = .next t ∧ t.status.err = 4
        ∧ OnlyStatus { s with responses := t.responses } t)
    ∧ (∀ (s : State) (i : Instr), i = .b2i ∨ i = .b2is →
      ∃ t : State, exec i s = .next t
        ∧ (t.status.err = 5 ↔ 64 < s.llen.toNat)
        ∧ (t.status.err = 5 → OnlyStatus s t)
        ∧ (t.status.err = 1 ↔ s.llen.toNat ≤ 64 ∧ ∃ j, j < s.llen.toNat ∧ norm (s.laneAt j) = none)
        ∧ (t.status.err = 1 → FirstBadLane (fun e => norm e ≠ none) s t.status.errIdx.toNat ∧ OnlyStatus s t)
        ∧ (t.status.err = 0 ∨ t.status.err = 1 ∨ t.status.err = 5))
    ∧ (∀ s : State, ∃ t : State, exec .b2by s = .next t
        ∧ (t.status.err = 5 ↔ 64 < s.llen.toNat)
        ∧ (t.status.err = 5 → OnlyStatus s t)
        ∧ (t.status.err = 2 ↔ s.llen.toNat ≤ 64 ∧ s.llen.toNat % 8 ≠ 0)
        ∧ (t.status.err = 2 → t.status.errIdx = 0 ∧ OnlyStatus s t)
        ∧ (t.status.err = 3 ↔ s.llen.toNat ≤ 64 ∧ s.llen.toNat % 8 = 0
            ∧ ∃ j, j < s.llen.toNat ∧ ¬ IsCanonicalLane (s.laneAt j))
        ∧ (t.status.err = 3 → FirstBadLane IsCanonicalLane s t.status.errIdx.toNat ∧ OnlyStatus s t)
        ∧ (t.status.err = 0 ∨ t.status.err = 2 ∨ t.status.err = 3 ∨ t.status.err = 5))
    ∧ (∀ (s : State) (i : Instr), i = .by2b ∨ (∃ w, i = .i2b w) ∨ (∃ g, i = .swp g) →
      ∃ t : State, exec i s = .next t ∧ (t.status.err = 0 ∨ t.status.err = 5) ∧ (t.status.err = 5 → OnlyStatus s t))

/-- 60_exceptions.md R75: truncation by I2B, B2I.S's bias, SWP with g ≥ LLEN or g not dividing LLEN, and an empty
sequence are no errors, and lanes beyond the sequence never make one. -/
def Obligations.PermissiveCasesAreNoErrors : Prop :=
  (∀ (s : State) (w : Nat), w ≤ 64 → ∃ t : State, exec (.i2b w) s = .next t ∧ t.status.err = 0)
    ∧ (∀ s : State, s.llen.toNat ≤ 64 → (∀ i, i < s.llen.toNat → IsBit (s.laneAt i)) →
      ∃ t : State, exec .b2is s = .next t ∧ t.status.err = 0)
    ∧ (∀ (s : State) (g : Nat), 1 ≤ g → s.llen.toNat ≤ 64 → ∃ t : State, exec (.swp g) s = .next t ∧ t.status.err = 0)
    ∧ (∀ (s : State) (g : Nat), 1 ≤ g → s.llen.toNat ≤ g → s.llen.toNat ≤ 64 →
      ∃ t : State, exec (.swp g) s = .next t ∧ t.lane = s.lane)
    ∧ (∀ (s : State) (i : Instr), s.llen = 0 → ¬ OutOfRange i s → ∃ t : State, exec i s = .next t ∧ t.status.err = 0)
    ∧ (∀ (s : State) (lanes : Vector Byte 64) (i : Instr),
      (∀ j, j < s.llen.toNat → { s with lane := lanes }.laneAt j = s.laneAt j) →
      ∃ t u : State, exec i s = .next t ∧ exec i { s with lane := lanes } = .next u ∧ t.status = u.status)

/-- ERR and ERRIDX change only by a CMD write or by reset, and ERRSEEN, once set, is cleared only by a write of 1 to
STATUS bit 16 or by reset: no other event at the inputs does either. -/
def Obligations.StatusChangesOnlyBy : Prop :=
  ∀ (s t : State) (e : PortEvent), step (s.offer e) = .next t →
    (t.status.err ≠ s.status.err ∨ t.status.errIdx ≠ s.status.errIdx →
      (∃ c, e = wr 0x00 c) ∨ e = .assertReset ∨ e = .releaseReset)
    ∧ (s.status.errSeen = true → t.status.errSeen = false →
      (∃ v : Word, e = wr 0x04 v ∧ v.getLsbD 16 = true) ∨ e = .assertReset ∨ e = .releaseReset)

/-! ## Reset (70_reset_and_hazards.md) -/

/-- 70_reset_and_hazards.md R89: the reset value of every register, and that every register takes it when reset is
asserted and again when it is released. -/
def Obligations.ResetGivesEveryRegisterItsValue : Prop :=
  State.reset.int = 0x0000000000000000#64 ∧ (∀ i, i < 64 → State.reset.laneAt i = 0x00#8) ∧ State.reset.llen = 0
    ∧ (∀ k, k < 8 → State.reset.byteAt k = 0x00#8) ∧ State.reset.blen = 0 ∧ statusWord State.reset.status = 0x00000000#32
    ∧ State.reset.idReg = 0x42430701#32
    ∧ (∀ s : State, ∃ t : State, step (s.offer .assertReset) = .next t ∧ t.inReset = true ∧ SameRegisters t State.reset)
    ∧ (∀ s : State, s.inReset = true →
      ∃ t : State, step (s.offer .releaseReset) = .next t ∧ t.inReset = false ∧ SameRegisters t State.reset)

/-- An access while reset is asserted has no step: the model refuses it by name (log 4). -/
def Obligations.AccessDuringResetHasNoStep : Prop :=
  ∀ (s : State) (a : Access), s.inReset = true → step (s.offer (.access a)) = .refused .accessDuringReset

/-- Right after reset every command runs: `b2i` and `b2i.s` give INT = 0, `b2by` gives BLEN = 0, `by2b` gives LLEN = 0,
each with ERR = 0, and I2B and SWP end in success for every count in range. -/
def Obligations.CommandsRunRightAfterReset : Prop :=
  (∃ t : State, exec .b2i State.reset = .next t ∧ t.int = 0 ∧ t.status.err = 0)
    ∧ (∃ t : State, exec .b2is State.reset = .next t ∧ t.int = 0 ∧ t.status.err = 0)
    ∧ (∃ t : State, exec .b2by State.reset = .next t ∧ t.blen = 0 ∧ t.status.err = 0)
    ∧ (∃ t : State, exec .by2b State.reset = .next t ∧ t.llen = 0 ∧ t.status.err = 0)
    ∧ (∀ w, w ≤ 64 → ∃ t : State, exec (.i2b w) State.reset = .next t ∧ t.llen.toNat = w ∧ t.status.err = 0)
    ∧ (∀ g, 1 ≤ g → ∃ t : State, exec (.swp g) State.reset = .next t ∧ t.lane = State.reset.lane ∧ t.status.err = 0)

/-! ## The whole machine -/

/-- The invariant holds right after reset, with reset released; that State.reset is the machine with reset released is
the model's choice (log 4). -/
def Obligations.InvariantHoldsAtReset : Prop := Inv State.reset ∧ State.reset.inReset = false

/-- Every step keeps the invariant: ID constant, ERR one of 0..5, ERRIDX in 0..63 and 0 but for the two lane errors, and
the registers held at their reset values while reset is asserted. -/
def Obligations.StepKeepsInvariant : Prop :=
  ∀ s t : State, Inv s → step s = .next t → Inv t

/-- 10_state.md R24's table: every command completes; on success it writes only the registers of its row, on an error
only STATUS; and its outcome and what it writes depend only on the registers its row says it reads. -/
def Obligations.CommandsReadAndWriteTheirRow : Prop :=
  (∀ (i : Instr) (s : State), ∃ t : State, exec i s = .next t ∧ (t.status.err = 0 → WritesOnly i s t)
      ∧ (t.status.err ≠ 0 → OnlyStatus s t))
    ∧ (∀ (i : Instr) (s s' t t' : State), SameReads i s s' → exec i s = .next t → exec i s' = .next t' →
      t.status.err = t'.status.err ∧ t.status.errIdx = t'.status.errIdx ∧ (t.status.err = 0 → SameWrites i t t'))

/-- 10_state.md R25: no command reads STATUS: whatever STATUS was before, the same registers get the same values, and
ERR and ERRIDX too. -/
def Obligations.NoCommandReadsStatus : Prop :=
  ∀ (i : Instr) (s : State) (st : Status),
    ∃ t u : State, exec i s = .next t ∧ exec i { s with status := st } = .next u ∧ u = { t with status := u.status }
      ∧ u.status.err = t.status.err ∧ u.status.errIdx = t.status.errIdx

/-- A host program of n accesses, run from an idle port with reset released, ends after n steps, whatever errors its
commands raise: every access is answered, in order, and every read gives one observation. A program in two parts runs
as the first part and then the second. One step for each access and the list of responses are the model's choice (logs
1 and 3). -/
def Obligations.HostProgramRunsToItsEnd : Prop :=
  (∀ (p : HostProgram) (s : State), s.inReset = false → s.port = [] →
      ∃ (t : State) (rs : List Response), runProgram p s = .next t ∧ t.port = [] ∧ t.inReset = false
        ∧ t.responses = s.responses ++ rs ∧ rs.length = p.length
        ∧ rs.map (fun r => (readValue r).isSome) = p.map (fun a => decide (a.op = .read)))
    ∧ (∀ (p q : HostProgram) (s t : State), s.inReset = false → s.port = [] → runProgram p s = .next t →
      runProgram (p ++ q) s = runProgram q t)

/-- As long as the host makes no access during reset, the machine never stops, and what is still to come stays so. -/
def Obligations.DisciplinedHostNeverStopsTheUnit : Prop :=
  ∀ s : State, Disciplined s.inReset s.port → ∃ t : State, step s = .next t ∧ Disciplined t.inReset t.port

/-! ## The assembly language (30_encoding.md R54, R55) -/

/-- 30_encoding.md R55: the pseudo-instructions' expansions and effects. -/
def Obligations.PseudoInstructions : Prop :=
  Asm.assemble .b2iu = Asm.assemble .b2i ∧ Asm.assemble .bswap = Asm.assemble (.swp (some 8))
    ∧ Asm.assemble .bitrev = Asm.assemble (.swp (some 1))
    ∧ (∀ w, w ≤ 64 → Asm.assemble (.zext w) = some [encode (.i2b w), encode .b2i]
        ∧ Asm.assemble (.sext w) = some [encode (.i2b w), encode .b2is])
    ∧ (∀ s : State, s.llen.toNat ≤ 64 → ∃ t : State, exec (.swp 1) s = .next t ∧ t.sequence = s.sequence.reverse)
    ∧ (∀ (s : State) (n k i : Nat), s.llen.toNat = 8 * n → n ≤ 8 → k < n → i < 8 →
      ∃ t : State, exec (.swp 8) s = .next t ∧ t.laneAt (8 * (n - 1 - k) + i) = s.laneAt (8 * k + i))
    ∧ (∀ (s : State) (w : Nat), w ≤ 64 →
      ∃ t : State, execSeq [.i2b w, .b2i] s = .next t ∧ t.int = (s.int.setWidth w).setWidth 64
        ∧ t = { s with int := t.int, lane := t.lane, llen := t.llen, status := t.status })
    ∧ (∀ (s : State) (w : Nat), w ≤ 64 →
      ∃ t : State, execSeq [.i2b w, .b2is] s = .next t ∧ t.int = (s.int.setWidth w).signExtend 64
        ∧ t = { s with int := t.int, lane := t.lane, llen := t.llen, status := t.status })

/-- The assembler's defaults (width 32, group size 8, unsigned), what it refuses (`i2b` above 64, `swp` of 0 or above
127, a `.word` above 32 bits), and that `.word` writes any word as it stands. -/
def Obligations.AssemblerDefaultsAndRefusals : Prop :=
  Asm.assemble (.i2b none) = Asm.assemble (.i2b (some 32)) ∧ Asm.assemble (.swp none) = Asm.assemble (.swp (some 8))
    ∧ Asm.assemble .b2i = some [encode .b2i]
    ∧ (∀ w, 64 < w → Asm.assemble (.i2b (some w)) = none)
    ∧ (∀ g, g = 0 ∨ 127 < g → Asm.assemble (.swp (some g)) = none)
    ∧ (∀ c : Word, Asm.stmtAccesses (.cmd (.word c.toNat)) = some [⟨0x00#8, .four, .write c⟩])
    ∧ (∀ v, 2 ^ 32 ≤ v → Asm.assemble (.word v) = none)
    ∧ (∀ (off : Offset) (v : Word), Asm.stmtAccesses (.wr off v) = some [⟨off, .four, .write v⟩]
        ∧ Asm.stmtAccesses (.rd off) = some [⟨off, .four, .read⟩])
end

