-- ==== Sys2Proof/Laws/State.lean ====
section
/-! SUPPORT. What each update of the state does to each field, one lemma per field per update. -/

namespace Sys2Proof.Machine

variable (s : State)

/-! ## raise -/

@[simp] theorem State.raise_int (e : ErrorKind) (idx : Nat) : (s.raise e idx).int = s.int := rfl
@[simp] theorem State.raise_lane (e : ErrorKind) (idx : Nat) : (s.raise e idx).lane = s.lane := rfl
@[simp] theorem State.raise_llen (e : ErrorKind) (idx : Nat) : (s.raise e idx).llen = s.llen := rfl
@[simp] theorem State.raise_bytes (e : ErrorKind) (idx : Nat) : (s.raise e idx).bytes = s.bytes := rfl
@[simp] theorem State.raise_blen (e : ErrorKind) (idx : Nat) : (s.raise e idx).blen = s.blen := rfl
@[simp] theorem State.raise_status (e : ErrorKind) (idx : Nat) : (s.raise e idx).status = statusError e idx := rfl
@[simp] theorem State.raise_idReg (e : ErrorKind) (idx : Nat) : (s.raise e idx).idReg = s.idReg := rfl
@[simp] theorem State.raise_port (e : ErrorKind) (idx : Nat) : (s.raise e idx).port = s.port := rfl
@[simp] theorem State.raise_responses (e : ErrorKind) (idx : Nat) : (s.raise e idx).responses = s.responses := rfl
@[simp] theorem State.raise_inReset (e : ErrorKind) (idx : Nat) : (s.raise e idx).inReset = s.inReset := rfl

/-! ## succeed -/

@[simp] theorem State.succeed_int : (s.succeed).int = s.int := rfl
@[simp] theorem State.succeed_lane : (s.succeed).lane = s.lane := rfl
@[simp] theorem State.succeed_llen : (s.succeed).llen = s.llen := rfl
@[simp] theorem State.succeed_bytes : (s.succeed).bytes = s.bytes := rfl
@[simp] theorem State.succeed_blen : (s.succeed).blen = s.blen := rfl
@[simp] theorem State.succeed_status : (s.succeed).status = statusOk s.status := rfl
@[simp] theorem State.succeed_idReg : (s.succeed).idReg = s.idReg := rfl
@[simp] theorem State.succeed_port : (s.succeed).port = s.port := rfl
@[simp] theorem State.succeed_responses : (s.succeed).responses = s.responses := rfl
@[simp] theorem State.succeed_inReset : (s.succeed).inReset = s.inReset := rfl

/-! ## writeStatus -/

@[simp] theorem State.writeStatus_int (v : Word) : (s.writeStatus v).int = s.int := rfl
@[simp] theorem State.writeStatus_lane (v : Word) : (s.writeStatus v).lane = s.lane := rfl
@[simp] theorem State.writeStatus_llen (v : Word) : (s.writeStatus v).llen = s.llen := rfl
@[simp] theorem State.writeStatus_bytes (v : Word) : (s.writeStatus v).bytes = s.bytes := rfl
@[simp] theorem State.writeStatus_blen (v : Word) : (s.writeStatus v).blen = s.blen := rfl
@[simp] theorem State.writeStatus_status (v : Word) : (s.writeStatus v).status = statusHostWrite v s.status := rfl
@[simp] theorem State.writeStatus_idReg (v : Word) : (s.writeStatus v).idReg = s.idReg := rfl
@[simp] theorem State.writeStatus_port (v : Word) : (s.writeStatus v).port = s.port := rfl
@[simp] theorem State.writeStatus_responses (v : Word) : (s.writeStatus v).responses = s.responses := rfl
@[simp] theorem State.writeStatus_inReset (v : Word) : (s.writeStatus v).inReset = s.inReset := rfl

/-! ## setLanes -/

@[simp] theorem State.setLanes_int (f : Nat → Byte) : (s.setLanes f).int = s.int := rfl
@[simp] theorem State.setLanes_lane (f : Nat → Byte) : (s.setLanes f).lane = bufferOf 64 f := rfl
@[simp] theorem State.setLanes_llen (f : Nat → Byte) : (s.setLanes f).llen = s.llen := rfl
@[simp] theorem State.setLanes_bytes (f : Nat → Byte) : (s.setLanes f).bytes = s.bytes := rfl
@[simp] theorem State.setLanes_blen (f : Nat → Byte) : (s.setLanes f).blen = s.blen := rfl
@[simp] theorem State.setLanes_status (f : Nat → Byte) : (s.setLanes f).status = s.status := rfl
@[simp] theorem State.setLanes_idReg (f : Nat → Byte) : (s.setLanes f).idReg = s.idReg := rfl
@[simp] theorem State.setLanes_port (f : Nat → Byte) : (s.setLanes f).port = s.port := rfl
@[simp] theorem State.setLanes_responses (f : Nat → Byte) : (s.setLanes f).responses = s.responses := rfl
@[simp] theorem State.setLanes_inReset (f : Nat → Byte) : (s.setLanes f).inReset = s.inReset := rfl

/-! ## setBytes -/

@[simp] theorem State.setBytes_int (f : Nat → Byte) : (s.setBytes f).int = s.int := rfl
@[simp] theorem State.setBytes_lane (f : Nat → Byte) : (s.setBytes f).lane = s.lane := rfl
@[simp] theorem State.setBytes_llen (f : Nat → Byte) : (s.setBytes f).llen = s.llen := rfl
@[simp] theorem State.setBytes_bytes (f : Nat → Byte) : (s.setBytes f).bytes = bufferOf 8 f := rfl
@[simp] theorem State.setBytes_blen (f : Nat → Byte) : (s.setBytes f).blen = s.blen := rfl
@[simp] theorem State.setBytes_status (f : Nat → Byte) : (s.setBytes f).status = s.status := rfl
@[simp] theorem State.setBytes_idReg (f : Nat → Byte) : (s.setBytes f).idReg = s.idReg := rfl
@[simp] theorem State.setBytes_port (f : Nat → Byte) : (s.setBytes f).port = s.port := rfl
@[simp] theorem State.setBytes_responses (f : Nat → Byte) : (s.setBytes f).responses = s.responses := rfl
@[simp] theorem State.setBytes_inReset (f : Nat → Byte) : (s.setBytes f).inReset = s.inReset := rfl

/-! ## setSequence -/

@[simp] theorem State.setSequence_int (n : Nat) (f : Nat → Byte) : (s.setSequence n f).int = s.int := rfl
@[simp] theorem State.setSequence_lane (n : Nat) (f : Nat → Byte) : (s.setSequence n f).lane = bufferOf 64 f := rfl
@[simp] theorem State.setSequence_llen (n : Nat) (f : Nat → Byte) : (s.setSequence n f).llen = BitVec.ofNat 7 n := rfl
@[simp] theorem State.setSequence_bytes (n : Nat) (f : Nat → Byte) : (s.setSequence n f).bytes = s.bytes := rfl
@[simp] theorem State.setSequence_blen (n : Nat) (f : Nat → Byte) : (s.setSequence n f).blen = s.blen := rfl
@[simp] theorem State.setSequence_status (n : Nat) (f : Nat → Byte) : (s.setSequence n f).status = s.status := rfl
@[simp] theorem State.setSequence_idReg (n : Nat) (f : Nat → Byte) : (s.setSequence n f).idReg = s.idReg := rfl
@[simp] theorem State.setSequence_port (n : Nat) (f : Nat → Byte) : (s.setSequence n f).port = s.port := rfl
@[simp] theorem State.setSequence_responses (n : Nat) (f : Nat → Byte) : (s.setSequence n f).responses = s.responses := rfl
@[simp] theorem State.setSequence_inReset (n : Nat) (f : Nat → Byte) : (s.setSequence n f).inReset = s.inReset := rfl

/-! ## respond -/

@[simp] theorem State.respond_int (r : Response) : (s.respond r).int = s.int := rfl
@[simp] theorem State.respond_lane (r : Response) : (s.respond r).lane = s.lane := rfl
@[simp] theorem State.respond_llen (r : Response) : (s.respond r).llen = s.llen := rfl
@[simp] theorem State.respond_bytes (r : Response) : (s.respond r).bytes = s.bytes := rfl
@[simp] theorem State.respond_blen (r : Response) : (s.respond r).blen = s.blen := rfl
@[simp] theorem State.respond_status (r : Response) : (s.respond r).status = s.status := rfl
@[simp] theorem State.respond_idReg (r : Response) : (s.respond r).idReg = s.idReg := rfl
@[simp] theorem State.respond_port (r : Response) : (s.respond r).port = s.port := rfl
@[simp] theorem State.respond_responses (r : Response) : (s.respond r).responses = s.responses ++ [r] := rfl
@[simp] theorem State.respond_inReset (r : Response) : (s.respond r).inReset = s.inReset := rfl

/-! ## applyReset -/

@[simp] theorem State.applyReset_int : (s.applyReset).int = State.reset.int := rfl
@[simp] theorem State.applyReset_lane : (s.applyReset).lane = State.reset.lane := rfl
@[simp] theorem State.applyReset_llen : (s.applyReset).llen = State.reset.llen := rfl
@[simp] theorem State.applyReset_bytes : (s.applyReset).bytes = State.reset.bytes := rfl
@[simp] theorem State.applyReset_blen : (s.applyReset).blen = State.reset.blen := rfl
@[simp] theorem State.applyReset_status : (s.applyReset).status = State.reset.status := rfl
@[simp] theorem State.applyReset_idReg : (s.applyReset).idReg = State.reset.idReg := rfl
@[simp] theorem State.applyReset_port : (s.applyReset).port = s.port := rfl
@[simp] theorem State.applyReset_responses : (s.applyReset).responses = s.responses := rfl
@[simp] theorem State.applyReset_inReset : (s.applyReset).inReset = s.inReset := rfl

/-! ## offer -/

@[simp] theorem State.offer_int (e : PortEvent) : (s.offer e).int = s.int := rfl
@[simp] theorem State.offer_lane (e : PortEvent) : (s.offer e).lane = s.lane := rfl
@[simp] theorem State.offer_llen (e : PortEvent) : (s.offer e).llen = s.llen := rfl
@[simp] theorem State.offer_bytes (e : PortEvent) : (s.offer e).bytes = s.bytes := rfl
@[simp] theorem State.offer_blen (e : PortEvent) : (s.offer e).blen = s.blen := rfl
@[simp] theorem State.offer_status (e : PortEvent) : (s.offer e).status = s.status := rfl
@[simp] theorem State.offer_idReg (e : PortEvent) : (s.offer e).idReg = s.idReg := rfl
@[simp] theorem State.offer_port (e : PortEvent) : (s.offer e).port = e :: s.port := rfl
@[simp] theorem State.offer_responses (e : PortEvent) : (s.offer e).responses = s.responses := rfl
@[simp] theorem State.offer_inReset (e : PortEvent) : (s.offer e).inReset = s.inReset := rfl

/-! ## load -/

@[simp] theorem State.load_int (p : HostProgram) : (s.load p).int = s.int := rfl
@[simp] theorem State.load_lane (p : HostProgram) : (s.load p).lane = s.lane := rfl
@[simp] theorem State.load_llen (p : HostProgram) : (s.load p).llen = s.llen := rfl
@[simp] theorem State.load_bytes (p : HostProgram) : (s.load p).bytes = s.bytes := rfl
@[simp] theorem State.load_blen (p : HostProgram) : (s.load p).blen = s.blen := rfl
@[simp] theorem State.load_status (p : HostProgram) : (s.load p).status = s.status := rfl
@[simp] theorem State.load_idReg (p : HostProgram) : (s.load p).idReg = s.idReg := rfl
@[simp] theorem State.load_port (p : HostProgram) : (s.load p).port = s.port ++ p.map .access := rfl
@[simp] theorem State.load_responses (p : HostProgram) : (s.load p).responses = s.responses := rfl
@[simp] theorem State.load_inReset (p : HostProgram) : (s.load p).inReset = s.inReset := rfl

end Sys2Proof.Machine
end

