-- ==== Sys2Proof/Laws/Operands.lean ====
section
/-! SUPPORT. The lemmas of the operand forms: buffers by index, the sequences, normalisation, the first offending lane,
and the numbers a bit-sequence stands for. -/

namespace Sys2Proof.Machine

variable (s : State)

/-! ## Buffers by index -/

@[simp] theorem bufferOf_toList (n : Nat) (f : Nat → Byte) : (bufferOf n f).toList = (List.range n).map f := by
  simp [bufferOf]

theorem bufferOf_getD {n i : Nat} (f : Nat → Byte) (h : i < n) : (bufferOf n f).toList.getD i 0 = f i := by
  simp [List.getD, h]

theorem State.laneAt_eq_getElem {i : Nat} (h : i < 64) : s.laneAt i = s.lane[i] := by
  simp [State.laneAt, List.getD, h]

theorem State.laneAt_of_ge {i : Nat} (h : 64 ≤ i) : s.laneAt i = 0 := by
  simp [State.laneAt, List.getD, h]

theorem State.byteAt_eq_getElem {k : Nat} (h : k < 8) : s.byteAt k = s.bytes[k] := by
  simp [State.byteAt, List.getD, h]

/-- A state's lanes are known by their indexes. -/
theorem State.lane_ext {s t : State} (h : ∀ i, i < 64 → s.laneAt i = t.laneAt i) : s.lane = t.lane := by
  ext1 i hi
  rw [← s.laneAt_eq_getElem hi, ← t.laneAt_eq_getElem hi, h i hi]

theorem State.bytes_ext {s t : State} (h : ∀ k, k < 8 → s.byteAt k = t.byteAt k) : s.bytes = t.bytes := by
  ext1 k hk
  rw [← s.byteAt_eq_getElem hk, ← t.byteAt_eq_getElem hk, h k hk]

theorem State.laneAt_congr {s t : State} (h : s.lane = t.lane) (i : Nat) : s.laneAt i = t.laneAt i := by
  simp only [State.laneAt, h]

theorem State.byteAt_congr {s t : State} (h : s.bytes = t.bytes) (k : Nat) : s.byteAt k = t.byteAt k := by
  simp only [State.byteAt, h]

@[simp] theorem State.laneAt_setLanes (f : Nat → Byte) {i : Nat} (h : i < 64) : (s.setLanes f).laneAt i = f i :=
  bufferOf_getD f h

@[simp] theorem State.byteAt_setBytes (f : Nat → Byte) {k : Nat} (h : k < 8) : (s.setBytes f).byteAt k = f k :=
  bufferOf_getD f h

@[simp] theorem State.laneAt_setSequence (n : Nat) (f : Nat → Byte) {i : Nat} (h : i < 64) :
    (s.setSequence n f).laneAt i = f i := bufferOf_getD f h

@[simp] theorem State.laneAt_succeed (i : Nat) : s.succeed.laneAt i = s.laneAt i := rfl
@[simp] theorem State.byteAt_succeed (k : Nat) : s.succeed.byteAt k = s.byteAt k := rfl

/-! ## The sequences -/

/-- The Bit-sequence is LANE[0..LLEN-1] (00_scope.md R8). -/
theorem State.sequence_eq_map (h : s.llen.toNat ≤ 64) : s.sequence = (List.range s.llen.toNat).map s.laneAt := by
  apply List.ext_getElem <;> simp [State.sequence]
  · omega
  · intro i h1 h2 _
    rw [s.laneAt_eq_getElem h2]

/-- The byte-sequence is BYTE[0..BLEN-1] (00_scope.md R8). -/
theorem State.byteSequence_eq_map (h : s.blen.toNat ≤ 8) :
    s.byteSequence = (List.range s.blen.toNat).map s.byteAt := by
  apply List.ext_getElem <;> simp [State.byteSequence]
  · omega
  · intro i h1 h2 _
    rw [s.byteAt_eq_getElem h2]

theorem State.sequence_length (h : s.llen.toNat ≤ 64) : s.sequence.length = s.llen.toNat := by
  simp [s.sequence_eq_map h]

theorem State.sequence_getElem? {i : Nat} (h : s.llen.toNat ≤ 64) (hi : i < s.llen.toNat) :
    s.sequence[i]? = some (s.laneAt i) := by
  simp [s.sequence_eq_map h, hi]

/-- Every element of the sequence is accepted iff every lane below LLEN is. -/
theorem State.forall_mem_sequence {P : Byte → Prop} (h : s.llen.toNat ≤ 64) :
    (∀ e ∈ s.sequence, P e) ↔ ∀ i, i < s.llen.toNat → P (s.laneAt i) := by
  simp [s.sequence_eq_map h]

@[simp] theorem State.sequence_succeed : s.succeed.sequence = s.sequence := rfl

/-! ## Normalisation and the first offending lane -/

/-- `norm` accepts exactly the four encodings of a Bit (40_int_bits.md R57). -/
theorem norm_isSome_iff (e : Byte) : (norm e).isSome = true ↔ IsBit e := by
  unfold norm IsBit
  split
  · simp; tauto
  · split <;> simp <;> tauto

theorem isCanonical_iff (e : Byte) : isCanonical e = true ↔ IsCanonicalLane e := by
  simp [isCanonical, IsCanonicalLane]

theorem firstOffending_eq_none {accepts : Byte → Bool} {seq : List Byte} :
    firstOffending accepts seq = none ↔ ∀ e ∈ seq, accepts e = true := by
  simp [firstOffending, List.findIdx?_eq_none_iff]

/-- The first offending lane is the lowest index that is not accepted. -/
theorem State.firstOffending_eq_some {accepts : Byte → Bool} {i : Nat} (h : s.llen.toNat ≤ 64) :
    firstOffending accepts s.sequence = some i ↔ FirstBadLane (fun e => accepts e = true) s i := by
  rw [firstOffending, List.findIdx?_eq_some_iff_getElem, FirstBadLane]
  constructor
  · rintro ⟨hi, h1, h2⟩
    rw [s.sequence_length h] at hi
    refine ⟨hi, ?_, fun j hj => ?_⟩
    · simpa [s.sequence_eq_map h] using h1
    · simpa [s.sequence_eq_map h] using h2 j hj
  · rintro ⟨hi, h1, h2⟩
    refine ⟨by rw [s.sequence_length h]; exact hi, ?_, fun j hj => ?_⟩
    · simpa [s.sequence_eq_map h] using h1
    · simpa [s.sequence_eq_map h] using h2 j hj

/-- The first offending lane reads only the sequence, so two accept predicates that agree agree on it. -/
theorem FirstBadLane.congr {P Q : Byte → Prop} {i : Nat} (hPQ : ∀ e, P e ↔ Q e) :
    FirstBadLane P s i ↔ FirstBadLane Q s i := by
  simp [FirstBadLane, hPQ]

/-! ## The numbers a bit-sequence stands for -/

theorem foldl_two_mul_add (val : Byte → Nat) (l : List Byte) (u : Nat) :
    l.foldl (fun u e => 2 * u + val e) u = u * 2 ^ l.length + l.foldl (fun u e => 2 * u + val e) 0 := by
  induction l generalizing u with
  | nil => simp
  | cons e l ih => rw [List.foldl_cons, ih, List.foldl_cons, ih (2 * 0 + val e)]; simp; ring

theorem unsignedValue_nil : unsignedValue [] = 0 := rfl

theorem unsignedValue_append_singleton (bits : List Bool) (b : Bool) :
    unsignedValue (bits ++ [b]) = 2 * unsignedValue bits + b.toNat := by simp [unsignedValue]

/-- The value of a sequence, its first bit weighing 2^(L-1) (40_int_bits.md R60). -/
theorem unsignedValue_cons (b : Bool) (bits : List Bool) :
    unsignedValue (b :: bits) = b.toNat * 2 ^ bits.length + unsignedValue bits := by
  induction bits using List.reverseRecOn with
  | nil => simp [unsignedValue]
  | append_singleton bits c ih =>
    rw [← List.cons_append, unsignedValue_append_singleton, ih, unsignedValue_append_singleton]
    simp only [List.length_append, List.length_singleton]
    ring

theorem unsignedValue_lt (bits : List Bool) : unsignedValue bits < 2 ^ bits.length := by
  induction bits with
  | nil => simp [unsignedValue]
  | cons b bits ih =>
    rw [unsignedValue_cons, List.length_cons, pow_succ]
    cases b <;> simp <;> omega

/-- Bit j of the value is element L-1-j of the sequence (20_memory.md R35: most significant first). -/
theorem unsignedValue_testBit (bits : List Bool) (j : Nat) :
    (unsignedValue bits).testBit j = (decide (j < bits.length) && bits.getD (bits.length - 1 - j) false) := by
  induction bits using List.reverseRecOn generalizing j with
  | nil => simp [unsignedValue]
  | append_singleton bits b ih =>
    rw [unsignedValue_append_singleton]
    cases j with
    | zero => cases b <;> simp [Nat.testBit_zero]
    | succ j =>
      rw [Nat.testBit_succ]
      have : (2 * unsignedValue bits + b.toNat) / 2 = unsignedValue bits := by
        cases b <;> simp
        omega
      rw [this, ih]
      by_cases hj : j < bits.length
      · have h1 : bits.length + 1 - 1 - (j + 1) = bits.length - 1 - j := by omega
        have h2 : bits.length - 1 - j < bits.length := by omega
        rw [List.length_append, List.length_singleton, h1, List.getD_append _ _ _ _ h2]
        simp [hj]
      · simp [hj]

/-- The value as the rule's sum (40_int_bits.md R60). -/
theorem unsignedValue_map_range (f : Nat → Bool) (n : Nat) :
    unsignedValue ((List.range n).map f) = ∑ i ∈ Finset.range n, (f i).toNat * 2 ^ (n - 1 - i) := by
  induction n with
  | zero => simp [unsignedValue]
  | succ n ih =>
    rw [List.range_succ, List.map_append, List.map_singleton, unsignedValue_append_singleton, ih,
      Finset.sum_range_succ, Finset.mul_sum]
    congr 1
    · apply Finset.sum_congr rfl
      intro i hi
      rw [Finset.mem_range] at hi
      have : n + 1 - 1 - i = (n - 1 - i) + 1 := by omega
      rw [this, pow_succ]; ring
    · simp

/-- The same with the first bit set apart (40_int_bits.md R61). -/
theorem signedValue_cons (b : Bool) (bits : List Bool) :
    signedValue (b :: bits) = (unsignedValue bits : Int) - if b then 2 ^ bits.length else 0 := by
  cases b
  · simp [signedValue, unsignedValue_cons]
  · simp [signedValue]

/-- B2I.S never overflows (40_int_bits.md R61): the value of up to 64 bits fits 64 bits of two's complement. -/
theorem signedValue_bounds {bits : List Bool} (h : bits.length ≤ 64) :
    -2 ^ 63 ≤ signedValue bits ∧ signedValue bits < 2 ^ 63 := by
  cases bits with
  | nil => simp [signedValue, unsignedValue]
  | cons b bits =>
    have h1 := unsignedValue_lt bits
    have h2 : 2 ^ bits.length ≤ 2 ^ 63 := Nat.pow_le_pow_right (by omega) (by simp at h; omega)
    have h3 : (2 : Int) ^ bits.length = ((2 ^ bits.length : Nat) : Int) := by push_cast; rfl
    rw [signedValue_cons, h3]
    generalize 2 ^ bits.length = m at *
    split <;> omega

/-- The signed value of a bit-sequence is that of the word with the same unsigned value (40_int_bits.md R61). -/
theorem signedValue_eq_toInt {bits : List Bool} {w : Nat} (hw : bits.length = w) {v : BitVec w}
    (hv : v.toNat = unsignedValue bits) : signedValue bits = v.toInt := by
  subst hw
  rw [BitVec.toInt_eq_msb_cond, BitVec.msb_eq_getLsbD_last, BitVec.getLsbD, hv, unsignedValue_testBit]
  cases bits with
  | nil => simp [signedValue, unsignedValue]
  | cons b bits =>
    rw [signedValue_cons]
    cases b
    · simp [unsignedValue_cons]
    · rw [unsignedValue_cons]; simp [pow_succ]; ring

/-- The normalised bits of an accepted sequence (40_int_bits.md R57). -/
theorem filterMap_norm {seq : List Byte} (h : ∀ e ∈ seq, (norm e).isSome = true) :
    seq.filterMap norm = seq.map fun e => (norm e).getD false := by
  induction seq with
  | nil => rfl
  | cons e seq ih =>
    obtain ⟨b, hb⟩ := Option.isSome_iff_exists.mp (h e (by simp))
    simp [hb, ih fun x hx => h x (List.mem_cons_of_mem _ hx)]

/-- The normalised bits of the state's sequence. -/
theorem State.filterMap_norm_sequence (h : s.llen.toNat ≤ 64)
    (hb : ∀ i, i < s.llen.toNat → IsBit (s.laneAt i)) :
    s.sequence.filterMap norm = (List.range s.llen.toNat).map fun i => (norm (s.laneAt i)).getD false := by
  rw [filterMap_norm]
  · rw [s.sequence_eq_map h, List.map_map]; rfl
  · exact (s.forall_mem_sequence h).mpr fun i hi => (norm_isSome_iff _).mpr (hb i hi)

end Sys2Proof.Machine
end

