-- ==== Sys2Proof/Laws/Codec.lean ====
section
/-! SUPPORT. The lookup table's two functions (10_state.md rule R22) and the sequences BY2B and B2BY make with them. -/

namespace Sys2Proof.Machine

@[simp] theorem canonicalLane_toNat (b : Bool) : (canonicalLane b).toNat = b.toNat := by cases b <;> rfl

@[simp] theorem isCanonical_canonicalLane (b : Bool) : isCanonical (canonicalLane b) = true := by cases b <;> rfl

theorem isCanonicalLane_canonicalLane (b : Bool) : IsCanonicalLane (canonicalLane b) := by
  cases b <;> simp [IsCanonicalLane, canonicalLane]

@[simp] theorem norm_canonicalLane (b : Bool) : norm (canonicalLane b) = some b := by cases b <;> rfl

theorem isBit_canonicalLane (b : Bool) : IsBit (canonicalLane b) := by cases b <;> simp [IsBit, canonicalLane]

/-- A canonical lane value is the lane of a bit. -/
theorem IsCanonicalLane.eq {e : Byte} (h : IsCanonicalLane e) : canonicalLane (e == 1) = e := by
  rcases h with rfl | rfl <;> rfl

/-- A sequence of canonical lanes is the lanes of a list of bits. -/
theorem canonical_eq_map {p : List Byte} (h : ∀ e ∈ p, IsCanonicalLane e) :
    p = (p.map fun e => e == 1).map canonicalLane := by
  rw [List.map_map]
  conv_lhs => rw [← List.map_id p]
  exact List.map_congr_left fun e he => (h e he).eq.symm

theorem foldl_canonicalLane (bits : List Bool) :
    (bits.map canonicalLane).foldl (fun u e => 2 * u + e.toNat) 0 = unsignedValue bits := by
  simp [List.foldl_map, unsignedValue]

/-- The bits of a byte, most significant first. -/
def byteBits (v : Byte) : List Bool := (List.range 8).map fun i => v.getLsbD (7 - i)

theorem expand_eq_map (v : Byte) : expand v = (byteBits v).map canonicalLane := by
  simp [expand, byteBits]

@[simp] theorem byteBits_length (v : Byte) : (byteBits v).length = 8 := by simp [byteBits]

@[simp] theorem expand_length (v : Byte) : (expand v).length = 8 := by simp [expand]

/-- EXP: element i is bit 7-i (10_state.md R22). -/
theorem expand_getElem? (v : Byte) {i : Nat} (h : i < 8) : (expand v)[i]? = some (canonicalLane (v.getLsbD (7 - i))) := by
  simp [expand, h]

theorem expand_canonical (v : Byte) : ∀ e ∈ expand v, IsCanonicalLane e := by
  intro e he
  rw [expand_eq_map, List.mem_map] at he
  obtain ⟨b, -, rfl⟩ := he
  exact isCanonicalLane_canonicalLane b

/-- INV of the lanes of 8 bits is the byte they are (10_state.md R22). -/
theorem compact_map {bits : List Bool} (h : bits.length = 8) :
    compact (bits.map canonicalLane) = some (BitVec.ofNat 8 (unsignedValue bits)) := by
  rw [compact, if_pos, foldl_canonicalLane]
  exact ⟨by simpa using h, by simp⟩

theorem unsignedValue_byteBits (v : Byte) : unsignedValue (byteBits v) = v.toNat := by
  apply Nat.eq_of_testBit_eq
  intro j
  rw [unsignedValue_testBit, byteBits_length]
  by_cases hj : j < 8
  · have : 7 - (8 - 1 - j) = j := by omega
    simp [hj, byteBits, List.getD, show 7 - j < 8 by omega, show 7 - (7 - j) = j by omega, BitVec.getLsbD]
  · simp [hj]
    exact Nat.testBit_lt_two_pow (lt_of_lt_of_le v.isLt (Nat.pow_le_pow_right (n := 2) (by omega)
      (Nat.not_lt.mp hj)))

/-- INV inverts EXP (10_state.md R22). -/
theorem compact_expand (v : Byte) : compact (expand v) = some v := by
  rw [expand_eq_map, compact_map (byteBits_length v), unsignedValue_byteBits, BitVec.ofNat_toNat, BitVec.setWidth_eq]

theorem expand_injective {v u : Byte} (h : expand v = expand u) : v = u := by
  have := compact_expand v
  rw [h, compact_expand] at this
  exact (Option.some.inj this).symm

/-- EXP inverts INV on 8 canonical lanes (10_state.md R22). -/
theorem expand_of_bits {bits : List Bool} (h : bits.length = 8) :
    expand (BitVec.ofNat 8 (unsignedValue bits)) = bits.map canonicalLane := by
  rw [expand_eq_map]
  congr 1
  apply List.ext_getElem (by simp [h])
  intro i h1 h2
  have hi : i < 8 := by simpa using h1
  simp only [byteBits, List.getElem_map, List.getElem_range, BitVec.getLsbD_ofNat, unsignedValue_testBit, h]
  simp [show 7 - i < 8 by omega, show 8 - 1 - (7 - i) = i by omega, List.getD, h2]

/-- INV succeeds exactly on the patterns of 8 canonical lanes. -/
theorem compact_eq_some_iff (p : List Byte) (v : Byte) : compact p = some v ↔ expand v = p := by
  constructor
  · intro h
    have hc : p.length = 8 ∧ p.all isCanonical = true := by
      by_contra hn
      rw [compact, if_neg hn] at h
      exact absurd h (by simp)
    have hp : ∀ e ∈ p, IsCanonicalLane e := fun e he => (isCanonical_iff e).mp (List.all_eq_true.mp hc.2 e he)
    have hb : (p.map fun e => e == 1).length = 8 := by simp [hc.1]
    rw [canonical_eq_map hp, compact_map hb] at h
    rw [← Option.some.inj h, expand_of_bits hb, ← canonical_eq_map hp]
  · rintro rfl
    exact compact_expand v

/-! ## Sequences of groups of 8 -/

@[simp] theorem flatMap_expand_length (l : List Byte) : (l.flatMap expand).length = 8 * l.length := by
  induction l with
  | nil => rfl
  | cons v l ih => rw [List.flatMap_cons, List.length_append, ih]; simp; ring

/-- Lane 8k+i of the expansion is element i of EXP of byte k (42_byte_codec.md R66). -/
theorem flatMap_expand_getElem? (l : List Byte) (k i : Nat) (hi : i < 8) :
    (l.flatMap expand)[8 * k + i]? = l[k]?.map fun v => canonicalLane (v.getLsbD (7 - i)) := by
  induction l generalizing k with
  | nil => simp
  | cons v l ih =>
    rw [List.flatMap_cons]
    cases k with
    | zero => rw [List.getElem?_append_left (by simp; omega)]; simp [expand_getElem? v hi]
    | succ k =>
      rw [List.getElem?_append_right (by simp; omega), expand_length, show 8 * (k + 1) + i - 8 = 8 * k + i by omega, ih]
      simp

/-- Group k of an expansion is EXP of byte k. -/
theorem runAt_flatMap_expand (l : List Byte) (k : Nat) (v : Byte) (h : l[k]? = some v) :
    runAt 8 (l.flatMap expand) k = expand v := by
  have hk : k < l.length := (List.getElem?_eq_some_iff.mp h).1
  apply List.ext_getElem?
  intro i
  by_cases hi : i < 8
  · rw [runAt, List.getElem?_take, if_pos hi, List.getElem?_drop, Nat.mul_comm k 8, flatMap_expand_getElem? _ _ _ hi, h,
      expand_getElem? v hi]
    rfl
  · rw [List.getElem?_eq_none (by simp [runAt]; omega), List.getElem?_eq_none (by simp; omega)]

end Sys2Proof.Machine
end

