-- ==== Sys2Proof/Laws/Swap.lean ====
section
/-! SUPPORT. The run reversal of SWP (41_swap.md rules R64, R65): its recursion, its length, and the lane it takes each
lane from. -/

namespace Sys2Proof.Machine

theorem runCount_zero {g : Nat} (hg : 1 ≤ g) : runCount g 0 = 0 := by
  simp [runCount, Nat.div_eq_of_lt (show g - 1 < g by omega)]

theorem runCount_add {g len : Nat} (hg : 1 ≤ g) : runCount g (len + g) = runCount g len + 1 := by
  have : len + g + g - 1 = (len + g - 1) + g := by omega
  rw [runCount, this, Nat.add_div_right _ (by omega), runCount]

theorem runCount_of_le {g len : Nat} (hlen : 1 ≤ len) (h : len ≤ g) : runCount g len = 1 := by
  have : len + g - 1 = (len - 1) + g := by omega
  rw [runCount, this, Nat.add_div_right _ (by omega), Nat.div_eq_of_lt (by omega)]

theorem runCount_eq {g len : Nat} (hg : 1 ≤ g) (hlen : 1 ≤ len) :
    runCount g len = runCount g (len - g) + 1 := by
  by_cases h : len ≤ g
  · rw [runCount_of_le hlen h, Nat.sub_eq_zero_of_le h, runCount_zero hg]
  · rw [← runCount_add hg]; congr 1; omega

theorem swapRuns_nil {g : Nat} (hg : 1 ≤ g) : swapRuns g [] = [] := by simp [swapRuns, runCount_zero hg]

/-- The first run goes last, behind the runs of the rest (41_swap.md R64). -/
theorem swapRuns_eq {g : Nat} (hg : 1 ≤ g) {seq : List Byte} (h : seq ≠ []) :
    swapRuns g seq = swapRuns g (seq.drop g) ++ seq.take g := by
  have hlen : 1 ≤ seq.length := List.length_pos_iff.mpr h
  have hrun : ∀ j, runAt g seq (j + 1) = runAt g (seq.drop g) j := by
    intro j; simp only [runAt, List.drop_drop]; congr 2; ring
  rw [swapRuns, runCount_eq hg hlen, List.range_succ_eq_map]
  simp only [List.map_cons, List.map_map, List.reverse_cons, List.flatten_append, List.flatten_singleton,
    swapRuns, List.length_drop]
  congr 1
  · congr 2; apply List.map_congr_left; intro j _; exact hrun j
  · simp [runAt]

/-- Strong induction along the runs: the empty sequence, and a first run in front of the rest. -/
theorem runs_induction {g : Nat} (hg : 1 ≤ g) {P : List Byte → Prop} (nil : P [])
    (run : ∀ seq, seq ≠ [] → P (seq.drop g) → P seq) (seq : List Byte) : P seq := by
  induction h : seq.length using Nat.strong_induction_on generalizing seq with
  | _ n ih =>
    by_cases hs : seq = []
    · exact hs ▸ nil
    · have : 1 ≤ seq.length := List.length_pos_iff.mpr hs
      exact run seq hs (ih _ (by rw [List.length_drop]; omega) _ rfl)

/-- SWP keeps every value as often as it was (41_swap.md R65). -/
theorem swapRuns_perm {g : Nat} (hg : 1 ≤ g) (seq : List Byte) : (swapRuns g seq).Perm seq := by
  induction seq using runs_induction hg with
  | nil => rw [swapRuns_nil hg]
  | run seq hs ih =>
    rw [swapRuns_eq hg hs]
    exact (List.perm_append_comm.trans ((List.Perm.append_left _ ih).trans (by rw [List.take_append_drop])))

theorem swapRuns_length {g : Nat} (hg : 1 ≤ g) (seq : List Byte) : (swapRuns g seq).length = seq.length :=
  (swapRuns_perm hg seq).length_eq

/-- One run stays as it is (41_swap.md R64, g ≥ L). -/
theorem swapRuns_of_length_le {g : Nat} (hg : 1 ≤ g) {seq : List Byte} (h : seq.length ≤ g) :
    swapRuns g seq = seq := by
  by_cases hs : seq = []
  · rw [hs, swapRuns_nil hg]
  · rw [swapRuns_eq hg hs, List.drop_eq_nil_of_le h, swapRuns_nil hg, List.take_of_length_le h, List.nil_append]

/-- Whole runs in front change places with what follows them. -/
theorem swapRuns_append {g : Nat} (hg : 1 ≤ g) (front back : List Byte) (h : front.length % g = 0) :
    swapRuns g (front ++ back) = swapRuns g back ++ swapRuns g front := by
  induction front using runs_induction hg with
  | nil => rw [swapRuns_nil hg]; simp
  | run front hs ih =>
    have hlen : 1 ≤ front.length := List.length_pos_iff.mpr hs
    have hge : g ≤ front.length := Nat.le_of_dvd (by omega) (Nat.dvd_of_mod_eq_zero h)
    have hmod : (front.drop g).length % g = 0 := by
      rw [List.length_drop, ← Nat.mod_eq_sub_mod hge, h]
    rw [swapRuns_eq hg (by simp [hs]), List.drop_append_of_le_length hge, List.take_append_of_le_length hge, ih hmod,
      swapRuns_eq hg hs, List.append_assoc]

/-- SWP g undoes itself when g divides the length (41_swap.md R65). -/
theorem swapRuns_involutive {g : Nat} (hg : 1 ≤ g) (seq : List Byte) (h : seq.length % g = 0) :
    swapRuns g (swapRuns g seq) = seq := by
  induction seq using runs_induction hg with
  | nil => rw [swapRuns_nil hg, swapRuns_nil hg]
  | run seq hs ih =>
    have hlen : 1 ≤ seq.length := List.length_pos_iff.mpr hs
    have hge : g ≤ seq.length := Nat.le_of_dvd (by omega) (Nat.dvd_of_mod_eq_zero h)
    have hmod : (seq.drop g).length % g = 0 := by rw [List.length_drop, ← Nat.mod_eq_sub_mod hge, h]
    rw [swapRuns_eq hg hs, swapRuns_append hg _ _ (by rw [swapRuns_length hg, hmod]), ih hmod,
      swapRuns_of_length_le hg (by rw [List.length_take]; omega), List.take_append_drop]

/-- SWP 1 is bit reversal (41_swap.md R64). -/
theorem swapRuns_one (seq : List Byte) : swapRuns 1 seq = seq.reverse := by
  induction seq using runs_induction (le_refl 1) with
  | nil => rw [swapRuns_nil (le_refl 1)]; rfl
  | run seq hs ih =>
    rw [swapRuns_eq (le_refl 1) hs, ih]
    cases seq <;> simp at hs ⊢

/-- In n whole runs, output element q comes from run n-1-q/g, at its own place in it (41_swap.md R64). -/
theorem swapRuns_getElem?_whole {g : Nat} (hg : 1 ≤ g) (n : Nat) (seq : List Byte) (h : seq.length = n * g) (q : Nat)
    (hq : q < n * g) : (swapRuns g seq)[q]? = seq[(n - 1 - q / g) * g + q % g]? := by
  induction n generalizing seq q with
  | zero => omega
  | succ n ih =>
    have hs : seq ≠ [] := by rintro rfl; simp at h; omega
    have hd : (seq.drop g).length = n * g := by rw [List.length_drop, h, Nat.add_one_mul]; omega
    rw [swapRuns_eq hg hs]
    by_cases hlt : q < n * g
    · have hdiv : q / g < n := Nat.div_lt_of_lt_mul (by rwa [Nat.mul_comm] at hlt)
      rw [List.getElem?_append_left (by rw [swapRuns_length hg, hd]; exact hlt), ih _ hd q hlt, List.getElem?_drop]
      congr 1
      have : n + 1 - 1 - q / g = (n - 1 - q / g) + 1 := by omega
      rw [this, Nat.add_one_mul]; omega
    · have hdiv : q / g = n := by
        apply Nat.div_eq_of_lt_le
        · omega
        · rw [Nat.add_one_mul] at hq ⊢; omega
      have hmod : q % g = q - n * g := by rw [Nat.mod_eq_sub_mul_div, hdiv, Nat.mul_comm]
      rw [List.getElem?_append_right (by rw [swapRuns_length hg, hd]; omega), swapRuns_length hg, hd, hdiv, hmod,
        List.getElem?_take, if_pos (by rw [Nat.add_one_mul] at hq; omega)]
      congr 1; simp

/-- The number of runs is what makes the last one at least one lane long and at most g. -/
theorem runCount_spec {g len : Nat} (hg : 1 ≤ g) (hlen : 1 ≤ len) :
    1 ≤ runCount g len ∧ (runCount g len - 1) * g < len ∧ len ≤ (runCount g len - 1) * g + g := by
  have h1 : len + g - 1 = (len - 1) + g := by omega
  have h2 : runCount g len = (len - 1) / g + 1 := by rw [runCount, h1, Nat.add_div_right _ (by omega)]
  have h3 := Nat.div_add_mod (len - 1) g
  have h4 := Nat.mod_lt (len - 1) (show g > 0 by omega)
  rw [h2, Nat.add_sub_cancel]
  rw [Nat.mul_comm] at h3
  generalize (len - 1) / g * g = m at *
  exact ⟨Nat.le_add_left _ _, by omega, by omega⟩

/-- 41_swap.md R64's permutation: output lane p comes from the last, short run when p lies in it, and otherwise from the
runs before it in reverse order. -/
theorem swapRuns_getElem? {g : Nat} (hg : 1 ≤ g) (seq : List Byte) (p : Nat) (hp : p < seq.length) :
    (swapRuns g seq)[p]? = seq[if p < seq.length - (runCount g seq.length - 1) * g
      then (runCount g seq.length - 1) * g + p
      else (runCount g seq.length - 2 - (p - (seq.length - (runCount g seq.length - 1) * g)) / g) * g
        + (p - (seq.length - (runCount g seq.length - 1) * g)) % g]? := by
  obtain ⟨h1, h2, h3⟩ := runCount_spec hg (show 1 ≤ seq.length by omega)
  generalize runCount g seq.length = k at *
  have hfront : (seq.take ((k - 1) * g)).length = (k - 1) * g := by rw [List.length_take]; omega
  have hback : (seq.drop ((k - 1) * g)).length = seq.length - (k - 1) * g := List.length_drop
  have hsplit : swapRuns g seq = seq.drop ((k - 1) * g) ++ swapRuns g (seq.take ((k - 1) * g)) := by
    conv_lhs => rw [← List.take_append_drop ((k - 1) * g) seq]
    rw [swapRuns_append hg _ _ (by rw [hfront]; simp), swapRuns_of_length_le hg (seq := seq.drop _) (by omega)]
  rw [hsplit]
  by_cases hlt : p < seq.length - (k - 1) * g
  · rw [if_pos hlt, List.getElem?_append_left (by omega), List.getElem?_drop]
  · rw [if_neg hlt, List.getElem?_append_right (by omega), hback,
      swapRuns_getElem?_whole hg (k - 1) _ hfront _ (by omega), List.getElem?_take, if_pos]
    · rw [show k - 1 - 1 = k - 2 by omega]
    · have hq : p - (seq.length - (k - 1) * g) < (k - 1) * g := by omega
      generalize p - (seq.length - (k - 1) * g) = q at *
      have hdiv : q / g < k - 1 := Nat.div_lt_of_lt_mul (by rwa [Nat.mul_comm] at hq)
      have hm := Nat.mod_lt q (show g > 0 by omega)
      have : (k - 1 - 1 - q / g) * g + g ≤ (k - 1) * g := by
        rw [← Nat.add_one_mul]
        refine Nat.mul_le_mul_right _ ?_
        generalize q / g = d at *
        omega
      exact lt_of_lt_of_le (Nat.add_lt_add_left hm _) this

end Sys2Proof.Machine
end

