-- ==== Sys2Proof/Laws/Ops.lean ====
section
/-! SUPPORT. What each shared operation and each meaning can do, said once: one lemma per case, its conditions in terms
of the state. -/

namespace Sys2Proof.Machine

variable (s : State)

/-! ## The port -/

theorem takeEvent_offer_access (a : Access) (h : s.inReset = false) :
    takeEvent (s.offer (.access a)) = serveAccess a s := by
  show (if s.inReset then Taken.stop .accessDuringReset else serveAccess a s) = _
  simp [h]

/-- An aligned 4-byte read returns the register and changes nothing (20_memory.md R31). -/
theorem step_rd {off : Offset} (h : s.inReset = false) (ha : off.toNat % 4 = 0) :
    step (s.offer (rd off)) = .next (s.respond (.read (s.readReg (regAt off)) false)) := by
  simp [step, rd, takeEvent_offer_access _ _ h, serveAccess, Access.served, ha]

theorem regAt_eq_cmd_iff {off : Offset} : regAt off = .cmd ↔ off = 0x00#8 := by
  revert off; decide +kernel

/-- An aligned 4-byte write to a register other than CMD stores its data (20_memory.md R31). -/
theorem step_wr {off : Offset} (v : Word) (h : s.inReset = false) (ha : off.toNat % 4 = 0) (hc : off ≠ 0x00#8) :
    step (s.offer (wr off v)) = .next ((s.writeReg (regAt off) v).respond (.write false)) := by
  have hr : regAt off ≠ .cmd := fun e => hc (regAt_eq_cmd_iff.mp e)
  simp [step, wr, takeEvent_offer_access _ _ h, serveAccess, Access.served, ha]

/-- A CMD write runs its command and is answered afterwards (20_memory.md R39). -/
theorem step_cmd_ok {c : Word} {i : Instr} (h : s.inReset = false) (hd : decode c = .ok i) :
    step (s.offer (wr 0x00#8 c)) = completeCommand (exec i s) := by
  simp [step, wr, takeEvent_offer_access _ _ h, serveAccess, Access.served, regAt, hd]

/-- A CMD write of an illegal word raises IllegalCommand(0) (60_exceptions.md R73). -/
theorem step_cmd_error {c : Word} {why : Illegal} (h : s.inReset = false) (hd : decode c = .error why) :
    step (s.offer (wr 0x00#8 c)) = .next ((s.raise .illegalCommand 0).respond (.write false)) := by
  simp [step, wr, takeEvent_offer_access _ _ h, serveAccess, Access.served, regAt, hd, completeCommand,
    State.rejectCommand]

/-- An access that is not of 4 bytes at a multiple of 4 gets a bus error (20_memory.md R29). -/
theorem step_busError {a : Access} (h : s.inReset = false) (ha : a.served = false) :
    step (s.offer (.access a)) = .next (s.respond (busErrorResponse a.op)) := by
  simp [step, takeEvent_offer_access _ _ h, serveAccess, ha]

theorem Access.served_iff (a : Access) : a.served = true ↔ a.size = .four ∧ a.off.toNat % 4 = 0 := by
  simp [Access.served]

@[simp] theorem completeCommand_next (t : State) : completeCommand (.next t) = .next (t.respond (.write false)) := rfl

/-! ## The meanings, case by case -/

theorem exec_i2b_range {w : Nat} (h : 64 < w) : exec (.i2b w) s = .next (s.raise .operandRange 0) := by
  simp [exec, execI2b, h]

theorem exec_i2b_ok {w : Nat} (h : w ≤ 64) :
    exec (.i2b w) s = .next (s.setSequence w (truncatedLane s.int w)).succeed := by
  simp [exec, execI2b, Nat.not_lt.mpr h]

theorem convertBits_range (value : List Bool → DWord) (h : 64 < s.llen.toNat) :
    s.convertBits value = s.raise .operandRange 0 := by simp [State.convertBits, h]

theorem convertBits_bad (value : List Bool → DWord) {i : Nat} (h : s.llen.toNat ≤ 64) (hi : FirstBadLane IsBit s i) :
    s.convertBits value = s.raise .invalidBitValue i := by
  have : firstOffending (fun e => (norm e).isSome) s.sequence = some i :=
    (s.firstOffending_eq_some h).mpr ((FirstBadLane.congr s fun e => norm_isSome_iff e).mpr hi)
  simp [State.convertBits, Nat.not_lt.mpr h, this]

theorem convertBits_ok (value : List Bool → DWord) (h : s.llen.toNat ≤ 64)
    (hb : ∀ i, i < s.llen.toNat → IsBit (s.laneAt i)) :
    s.convertBits value = ({ s with int := value (s.sequence.filterMap norm) } : State).succeed := by
  have : firstOffending (fun e => (norm e).isSome) s.sequence = none :=
    firstOffending_eq_none.mpr ((s.forall_mem_sequence h).mpr fun i hi => (norm_isSome_iff _).mpr (hb i hi))
  simp [State.convertBits, Nat.not_lt.mpr h, this]

theorem exec_swp_range {g : Nat} (h : g = 0 ∨ 64 < s.llen.toNat) :
    exec (.swp g) s = .next (s.raise .operandRange 0) := by simp [exec, execSwp, h]

theorem exec_swp_ok {g : Nat} (hg : 1 ≤ g) (h : s.llen.toNat ≤ 64) :
    exec (.swp g) s = .next (s.setLanes fun i => (swapRuns g s.sequence).getD i (s.laneAt i)).succeed := by
  simp [exec, execSwp, Nat.not_lt.mpr h, Nat.one_le_iff_ne_zero.mp hg]

theorem exec_by2b_range (h : 8 < s.blen.toNat) : exec .by2b s = .next (s.raise .operandRange 0) := by
  simp [exec, execBy2b, h]

theorem exec_by2b_ok (h : s.blen.toNat ≤ 8) : exec .by2b s =
    .next (s.setSequence (8 * s.blen.toNat) fun j => (s.byteSequence.flatMap expand).getD j 0x00#8).succeed := by
  simp [exec, execBy2b, Nat.not_lt.mpr h]

theorem exec_b2by_range (h : 64 < s.llen.toNat) : exec .b2by s = .next (s.raise .operandRange 0) := by
  simp [exec, execB2by, h]

theorem exec_b2by_length (h : s.llen.toNat ≤ 64) (h8 : s.llen.toNat % 8 ≠ 0) :
    exec .b2by s = .next (s.raise .malformedLength 0) := by
  simp [exec, execB2by, Nat.not_lt.mpr h, h8]

theorem exec_b2by_bad {i : Nat} (h : s.llen.toNat ≤ 64) (h8 : s.llen.toNat % 8 = 0)
    (hi : FirstBadLane IsCanonicalLane s i) : exec .b2by s = .next (s.raise .invalidBitPattern i) := by
  have : firstOffending isCanonical s.sequence = some i :=
    (s.firstOffending_eq_some h).mpr ((FirstBadLane.congr s fun e => isCanonical_iff e).mpr hi)
  simp [exec, execB2by, Nat.not_lt.mpr h, h8, this]

theorem exec_b2by_ok (h : s.llen.toNat ≤ 64) (h8 : s.llen.toNat % 8 = 0)
    (hb : ∀ i, i < s.llen.toNat → IsCanonicalLane (s.laneAt i)) : exec .b2by s =
    .next ({ s.setBytes (reducedByte s.sequence) with blen := BitVec.ofNat 4 (s.llen.toNat / 8) } : State).succeed := by
  have : firstOffending isCanonical s.sequence = none :=
    firstOffending_eq_none.mpr ((s.forall_mem_sequence h).mpr fun i hi => (isCanonical_iff _).mpr (hb i hi))
  simp [exec, execB2by, Nat.not_lt.mpr h, h8, this]

/-- Either every lane of the sequence is accepted, or there is a first one that is not. -/
theorem allAccepted_or_firstBad (P : Byte → Prop) :
    (∀ i, i < s.llen.toNat → P (s.laneAt i)) ∨ ∃ i, FirstBadLane P s i := by
  classical
  by_cases h : ∃ i, i < s.llen.toNat ∧ ¬ P (s.laneAt i)
  · right
    refine ⟨Nat.find h, (Nat.find_spec h).1, (Nat.find_spec h).2, fun j hj => ?_⟩
    have hm := Nat.find_min h hj
    have hlt : j < s.llen.toNat := lt_trans hj (Nat.find_spec h).1
    by_contra hn
    exact hm ⟨hlt, hn⟩
  · left
    intro i hi
    by_contra hn
    exact h ⟨i, hi, hn⟩

/-- Why a legal command raises that error kind with that index (60_exceptions.md R69, R70, R71, R72, R74). -/
inductive Cause (i : Instr) (s : State) : ErrorKind → Nat → Prop where
  | range (h : OutOfRange i s) : Cause i s .operandRange 0
  | length (hi : i = .b2by) (h8 : s.llen.toNat % 8 ≠ 0) : Cause i s .malformedLength 0
  | badBit (k : Nat) (hi : i = .b2i ∨ i = .b2is) (hk : k < 64) (h : FirstBadLane IsBit s k) : Cause i s .invalidBitValue k
  | badLane (k : Nat) (hi : i = .b2by) (hk : k < 64) (h : FirstBadLane IsCanonicalLane s k) :
      Cause i s .invalidBitPattern k

theorem Cause.lt_64 {i : Instr} {s : State} {e : ErrorKind} {k : Nat} (h : Cause i s e k) : k < 64 := by
  cases h <;> omega

theorem Cause.ne_illegal {i : Instr} {s : State} {e : ErrorKind} {k : Nat} (h : Cause i s e k) : e ≠ .illegalCommand := by
  cases h <;> simp

theorem Cause.kind_of_ne_zero {i : Instr} {s : State} {e : ErrorKind} {k : Nat} (h : Cause i s e k) (hk : k ≠ 0) :
    e = .invalidBitValue ∨ e = .invalidBitPattern := by
  cases h <;> simp at hk ⊢

/-- The two ways a legal command ends: it raises an error of the table's causes, or it succeeds. -/
inductive Ending (i : Instr) (s t : State) : Prop where
  | error (e : ErrorKind) (idx : Nat) (h : t = s.raise e idx) (hc : Cause i s e idx) : Ending i s t
  | success (h : t.status = statusOk s.status) (hw : WritesOnly i s t) (hr : ¬ OutOfRange i s) : Ending i s t

theorem FirstBadLane.lt_64 {P : Byte → Prop} {i : Nat} (h : FirstBadLane P s i) (hl : s.llen.toNat ≤ 64) : i < 64 :=
  lt_of_lt_of_le h.1 hl

theorem convertBits_ending (i : Instr) (value : List Bool → DWord)
    (hi : i = .b2i ∨ i = .b2is)
    (hw : ∀ u, WritesOnly i s ({ s with int := u } : State).succeed) (hr : OutOfRange i s ↔ 64 < s.llen.toNat) :
    Ending i s (s.convertBits value) := by
  by_cases h : 64 < s.llen.toNat
  · exact .error .operandRange 0 (convertBits_range s value h) (.range (hr.mpr h))
  · have h' := Nat.not_lt.mp h
    obtain hb | ⟨j, hj⟩ := allAccepted_or_firstBad s IsBit
    · rw [convertBits_ok s value h' hb]
      exact .success rfl (hw _) (by rwa [hr])
    · exact .error .invalidBitValue j (convertBits_bad s value h' hj) (.badBit j hi (hj.lt_64 s h') hj)

/-- Every command completes, in one of the two endings (60_exceptions.md R76, R77; 10_state.md R24). -/
theorem exec_ending (i : Instr) : ∃ t, exec i s = .next t ∧ Ending i s t := by
  cases i with
  | i2b w =>
    by_cases h : 64 < w
    · exact ⟨_, exec_i2b_range s h, .error .operandRange 0 rfl (.range h)⟩
    · exact ⟨_, exec_i2b_ok s (Nat.not_lt.mp h), .success rfl rfl h⟩
  | b2i => exact ⟨_, rfl, convertBits_ending s _ _ (by simp) (fun _ => rfl) Iff.rfl⟩
  | b2is => exact ⟨_, rfl, convertBits_ending s _ _ (by simp) (fun _ => rfl) Iff.rfl⟩
  | swp g =>
    by_cases h : g = 0 ∨ 64 < s.llen.toNat
    · exact ⟨_, exec_swp_range s h, .error .operandRange 0 rfl (.range h)⟩
    · push Not at h
      refine ⟨_, exec_swp_ok s (Nat.one_le_iff_ne_zero.mpr h.1) h.2, .success rfl ⟨rfl, fun j hj => ?_⟩ ?_⟩
      · by_cases hj64 : j < 64
        · rw [State.laneAt_succeed, State.laneAt_setLanes _ _ hj64, List.getD_eq_default]
          rwa [swapRuns_length (Nat.one_le_iff_ne_zero.mpr h.1), s.sequence_length h.2]
        · rw [State.laneAt_of_ge _ (Nat.not_lt.mp hj64), State.laneAt_of_ge _ (Nat.not_lt.mp hj64)]
      · simp only [OutOfRange]; omega
  | by2b =>
    by_cases h : 8 < s.blen.toNat
    · exact ⟨_, exec_by2b_range s h, .error .operandRange 0 rfl (.range h)⟩
    · exact ⟨_, exec_by2b_ok s (Nat.not_lt.mp h), .success rfl rfl h⟩
  | b2by =>
    by_cases h : 64 < s.llen.toNat
    · exact ⟨_, exec_b2by_range s h, .error .operandRange 0 rfl (.range h)⟩
    have h' := Nat.not_lt.mp h
    by_cases h8 : s.llen.toNat % 8 = 0
    · obtain hb | ⟨j, hj⟩ := allAccepted_or_firstBad s IsCanonicalLane
      · exact ⟨_, exec_b2by_ok s h' h8 hb, .success rfl rfl h⟩
      · exact ⟨_, exec_b2by_bad s h' h8 hj, .error .invalidBitPattern j rfl (.badLane j rfl (hj.lt_64 s h') hj)⟩
    · exact ⟨_, exec_b2by_length s h' h8, .error .malformedLength 0 rfl (.length rfl h8)⟩

end Sys2Proof.Machine
end

