-- ==== Sys2Proof/Laws/Commands.lean ====
section
/-! SUPPORT. The state each command leaves when it succeeds, and the lanes and bytes it holds: one spec lemma per
command, cited instead of unfolding the meaning (40_int_bits.md, 41_swap.md, 42_byte_codec.md). -/

namespace Sys2Proof.Machine

variable (s : State)

/-! ## I2B -/

/-- The state a successful I2B w leaves (40_int_bits.md R58). -/
def afterI2b (w : Nat) (s : State) : State := (s.setSequence w (truncatedLane s.int w)).succeed

theorem exec_i2b_eq {w : Nat} (h : w ≤ 64) : exec (.i2b w) s = .next (afterI2b w s) := exec_i2b_ok s h

theorem afterI2b_llen {w : Nat} (h : w ≤ 64) : (afterI2b w s).llen.toNat = w := by simp [afterI2b]; omega

theorem afterI2b_laneAt (w : Nat) {i : Nat} (h : i < 64) : (afterI2b w s).laneAt i = truncatedLane s.int w i := by
  rw [afterI2b, State.laneAt_succeed, State.laneAt_setSequence _ _ _ h]

/-- The sequence I2B w leaves is the low w bits of INT, most significant first (20_memory.md R35). -/
theorem afterI2b_sequence {w : Nat} (h : w ≤ 64) : (afterI2b w s).sequence =
    ((List.range w).map fun i => s.int.getLsbD (w - 1 - i)).map canonicalLane := by
  rw [State.sequence_eq_map _ (by rw [afterI2b_llen s h]; exact h), afterI2b_llen s h, List.map_map]
  apply List.map_congr_left
  intro i hi
  rw [List.mem_range] at hi
  rw [afterI2b_laneAt s w (by omega), truncatedLane, if_pos hi]; rfl

theorem afterI2b_isBit {w : Nat} (h : w ≤ 64) :
    ∀ i, i < (afterI2b w s).llen.toNat → IsBit ((afterI2b w s).laneAt i) := by
  intro i hi
  rw [afterI2b_llen s h] at hi
  rw [afterI2b_laneAt s w (by omega), truncatedLane, if_pos hi]; exact isBit_canonicalLane _

/-- Normalising canonical lanes gives the bits back (40_int_bits.md R57). -/
theorem filterMap_norm_canonicalLane (bits : List Bool) : (bits.map canonicalLane).filterMap norm = bits := by
  induction bits with
  | nil => rfl
  | cons b bits ih => simp [ih]

/-- The low w bits of a word, most significant first, have its value modulo 2^w. -/
theorem unsignedValue_lowBits (v : DWord) (w : Nat) :
    unsignedValue ((List.range w).map fun i => v.getLsbD (w - 1 - i)) = (v.setWidth w).toNat := by
  apply Nat.eq_of_testBit_eq
  intro j
  rw [unsignedValue_testBit, BitVec.testBit_toNat, BitVec.getLsbD_setWidth]
  by_cases hj : j < w
  · simp [hj, List.getD, show w - 1 - j < w by omega, show w - 1 - (w - 1 - j) = j by omega]
  · simp [hj]

/-! ## B2I and B2I.S -/

theorem exec_b2i_eq (h : s.llen.toNat ≤ 64) (hb : ∀ i, i < s.llen.toNat → IsBit (s.laneAt i)) : exec .b2i s =
    .next ({ s with int := BitVec.ofNat 64 (unsignedValue (s.sequence.filterMap norm)) } : State).succeed :=
  congrArg Host.Outcome.next (convertBits_ok s _ h hb)

theorem exec_b2is_eq (h : s.llen.toNat ≤ 64) (hb : ∀ i, i < s.llen.toNat → IsBit (s.laneAt i)) : exec .b2is s =
    .next ({ s with int := BitVec.ofInt 64 (signedValue (s.sequence.filterMap norm)) } : State).succeed :=
  congrArg Host.Outcome.next (convertBits_ok s _ h hb)

/-! ## SWP -/

/-- The state a successful SWP g leaves (41_swap.md R64). -/
def afterSwp (g : Nat) (s : State) : State :=
  (s.setLanes fun i => (swapRuns g s.sequence).getD i (s.laneAt i)).succeed

theorem exec_swp_eq {g : Nat} (hg : 1 ≤ g) (h : s.llen.toNat ≤ 64) : exec (.swp g) s = .next (afterSwp g s) :=
  exec_swp_ok s hg h

/-- The sequence SWP g leaves: the runs in reverse order (41_swap.md R64). -/
theorem afterSwp_sequence {g : Nat} (hg : 1 ≤ g) (h : s.llen.toNat ≤ 64) :
    (afterSwp g s).sequence = swapRuns g s.sequence := by
  have hl := swapRuns_length hg s.sequence
  rw [s.sequence_length h] at hl
  rw [State.sequence_eq_map _ (show (afterSwp g s).llen.toNat ≤ 64 from h)]
  apply List.ext_getElem
  · simp [hl]; rfl
  · intro i h1 h2
    simp only [List.getElem_map, List.getElem_range]
    rw [afterSwp, State.laneAt_succeed, State.laneAt_setLanes _ _ (show i < 64 by omega)]
    simp [List.getD, h2]

/-- SWP writes no lane beyond the sequence (10_state.md R15, R24). -/
theorem afterSwp_laneAt_of_ge {g : Nat} (hg : 1 ≤ g) (h : s.llen.toNat ≤ 64) {j : Nat} (hj : s.llen.toNat ≤ j) :
    (afterSwp g s).laneAt j = s.laneAt j := by
  by_cases hj64 : j < 64
  · rw [afterSwp, State.laneAt_succeed, State.laneAt_setLanes _ _ hj64, List.getD_eq_default]
    rwa [swapRuns_length hg, s.sequence_length h]
  · rw [State.laneAt_of_ge _ (Nat.not_lt.mp hj64), State.laneAt_of_ge _ (Nat.not_lt.mp hj64)]

/-- Which lane comes where, read off the sequences. -/
theorem afterSwp_laneAt {g : Nat} (hg : 1 ≤ g) (h : s.llen.toNat ≤ 64) {p q : Nat} (hp : p < s.llen.toNat)
    (hq : q < s.llen.toNat) (hpq : (swapRuns g s.sequence)[p]? = s.sequence[q]?) :
    (afterSwp g s).laneAt p = s.laneAt q := by
  have a := State.sequence_getElem? (afterSwp g s) h hp
  rw [afterSwp_sequence s hg h, hpq, s.sequence_getElem? h hq] at a
  exact (Option.some.inj a).symm

/-! ## BY2B and B2BY -/

/-- The state a successful BY2B leaves (42_byte_codec.md R66). -/
def afterBy2b (s : State) : State :=
  (s.setSequence (8 * s.blen.toNat) fun j => (s.byteSequence.flatMap expand).getD j 0x00#8).succeed

theorem exec_by2b_eq (h : s.blen.toNat ≤ 8) : exec .by2b s = .next (afterBy2b s) := exec_by2b_ok s h

theorem afterBy2b_llen (h : s.blen.toNat ≤ 8) : (afterBy2b s).llen.toNat = 8 * s.blen.toNat := by
  simp [afterBy2b]; omega

theorem afterBy2b_laneAt (h : s.blen.toNat ≤ 8) {k i : Nat} (hk : k < s.blen.toNat) (hi : i < 8) :
    (afterBy2b s).laneAt (8 * k + i) = canonicalLane ((s.byteAt k).getLsbD (7 - i)) := by
  rw [afterBy2b, State.laneAt_succeed, State.laneAt_setSequence _ _ _ (by omega), List.getD,
    flatMap_expand_getElem? _ _ _ hi, s.byteSequence_eq_map h]
  simp [hk]

theorem afterBy2b_laneAt_of_ge (h : s.blen.toNat ≤ 8) {j : Nat} (hj : 8 * s.blen.toNat ≤ j) (hj64 : j < 64) :
    (afterBy2b s).laneAt j = 0x00#8 := by
  rw [afterBy2b, State.laneAt_succeed, State.laneAt_setSequence _ _ _ hj64, List.getD_eq_default]
  rw [flatMap_expand_length, s.byteSequence_eq_map h]; simpa using hj

/-- The state a successful B2BY leaves (42_byte_codec.md R67). -/
def afterB2by (s : State) : State :=
  ({ s.setBytes (reducedByte s.sequence) with blen := BitVec.ofNat 4 (s.llen.toNat / 8) } : State).succeed

theorem exec_b2by_eq (h : s.llen.toNat ≤ 64) (h8 : s.llen.toNat % 8 = 0)
    (hb : ∀ i, i < s.llen.toNat → IsCanonicalLane (s.laneAt i)) : exec .b2by s = .next (afterB2by s) :=
  exec_b2by_ok s h h8 hb

theorem afterB2by_blen (h : s.llen.toNat ≤ 64) : (afterB2by s).blen.toNat = s.llen.toNat / 8 := by
  simp [afterB2by]; omega

/-- Byte k of a successful B2BY is the one whose EXP is group k of the lanes (42_byte_codec.md R67, 10_state.md R22). -/
theorem expand_afterB2by_byteAt (h : s.llen.toNat ≤ 64) (hb : ∀ i, i < s.llen.toNat → IsCanonicalLane (s.laneAt i))
    {k : Nat} (hk : k < s.llen.toNat / 8) :
    expand ((afterB2by s).byteAt k) = (List.range 8).map fun i => s.laneAt (8 * k + i) := by
  have hr : runAt 8 s.sequence k = (List.range 8).map fun i => s.laneAt (8 * k + i) := by
    apply List.ext_getElem?
    intro i
    by_cases hi : i < 8
    · rw [runAt, List.getElem?_take, if_pos hi, List.getElem?_drop, Nat.mul_comm k 8,
        s.sequence_getElem? h (by omega)]
      simp [hi]
    · rw [List.getElem?_eq_none (by simp [runAt]; omega), List.getElem?_eq_none (by simp; omega)]
  have hc : ∀ e ∈ (List.range 8).map fun i => s.laneAt (8 * k + i), IsCanonicalLane e := by
    intro e he
    simp only [List.mem_map, List.mem_range] at he
    obtain ⟨i, hi, rfl⟩ := he
    exact hb _ (by omega)
  obtain ⟨v, hv⟩ : ∃ v, compact ((List.range 8).map fun i => s.laneAt (8 * k + i)) = some v := by
    rw [canonical_eq_map hc, compact_map (by simp)]; exact ⟨_, rfl⟩
  have hbyte : (afterB2by s).byteAt k = reducedByte s.sequence k := by
    rw [afterB2by, State.byteAt_succeed]
    exact State.byteAt_setBytes s _ (by omega)
  rw [hbyte, reducedByte, s.sequence_length h, if_pos hk, hr, hv]
  exact (compact_eq_some_iff _ _).mp hv

theorem afterB2by_byteAt_of_ge (h : s.llen.toNat ≤ 64) {k : Nat} (hk : s.llen.toNat / 8 ≤ k) (hk8 : k < 8) :
    (afterB2by s).byteAt k = 0x00#8 := by
  have hbyte : (afterB2by s).byteAt k = reducedByte s.sequence k := by
    rw [afterB2by, State.byteAt_succeed]
    exact State.byteAt_setBytes s _ hk8
  rw [hbyte, reducedByte, s.sequence_length h, if_neg (by omega)]

/-- A byte is the sum of its pattern's lanes (10_state.md R22). -/
theorem byte_eq_sum (v : Byte) : v.toNat = ∑ i ∈ Finset.range 8, ((expand v).getD i 0).toNat * 2 ^ (7 - i) := by
  rw [← unsignedValue_byteBits, byteBits, unsignedValue_map_range]
  apply Finset.sum_congr rfl
  intro i hi
  rw [Finset.mem_range] at hi
  rw [List.getD, expand_getElem? v hi]; simp

end Sys2Proof.Machine
end

