-- ==== Sys2Proof/Laws/Decode.lean ====
section
/-! SUPPORT. The fields of format C (30_encoding.md rule R47): a word is its fields, and what the encoder puts in each. -/

namespace Sys2Proof

/-- A command word is its five fields (30_encoding.md R47). -/
theorem word_ext_fields {c d : Word} : c = d ↔
    resHField c = resHField d ∧ nField c = nField d ∧ resLField c = resLField d ∧ sField c = sField d
      ∧ opField c = opField d := by
  constructor
  · rintro rfl; simp
  · rintro ⟨h1, h2, h3, h4, h5⟩
    apply BitVec.eq_of_getLsbD_eq
    intro i hi
    have bit : ∀ {a b : Nat} {f : Word → BitVec b}, (∀ x, f x = x.extractLsb' a b) → f c = f d → a ≤ i → i < a + b →
        c.getLsbD i = d.getLsbD i := by
      intro a b f hf he ha hb
      have := congrArg (fun v => BitVec.getLsbD v (i - a)) he
      simpa [hf, show i - a < b by omega, show a + (i - a) = i by omega] using this
    by_cases i1 : i < 4
    · exact bit (fun _ => rfl) h5 (by omega) (by omega)
    by_cases i2 : i = 4
    · exact i2 ▸ h4
    by_cases i3 : i < 8
    · exact bit (fun _ => rfl) h3 (by omega) (by omega)
    by_cases i4 : i < 15
    · exact bit (fun _ => rfl) h2 (by omega) (by omega)
    · exact bit (fun _ => rfl) h1 (by omega) (by omega)

@[simp] theorem resHField_and (c d : Word) : resHField (c &&& d) = resHField c &&& resHField d := by
  simp [resHField, BitVec.extractLsb'_and]
@[simp] theorem nField_and (c d : Word) : nField (c &&& d) = nField c &&& nField d := by
  simp [nField, BitVec.extractLsb'_and]
@[simp] theorem resLField_and (c d : Word) : resLField (c &&& d) = resLField c &&& resLField d := by
  simp [resLField, BitVec.extractLsb'_and]
@[simp] theorem sField_and (c d : Word) : sField (c &&& d) = (sField c && sField d) := by simp [sField]
@[simp] theorem opField_and (c d : Word) : opField (c &&& d) = opField c &&& opField d := by
  simp [opField, BitVec.extractLsb'_and]

variable (n : Nat) (b : Bool) (op : BitVec 4)

/-- Bit j of a formatted word. -/
theorem formatC_getLsbD (j : Nat) (hj : j < 32) : (formatC n b op).getLsbD j =
    ((decide (8 ≤ j) && (BitVec.ofNat 7 n).getLsbD (j - 8)) || (decide (j = 4) && b) || op.getLsbD j) := by
  have hb : (!decide (j < 4) && (BitVec.ofBool b).getLsbD (j - 4)) = (decide (j = 4) && b) := by
    by_cases h : j = 4
    · subst h; cases b <;> rfl
    · by_cases h4 : j < 4
      · simp [h4, h]
      · simp [h4, h, BitVec.getLsbD_of_ge _ _ (show 1 ≤ j - 4 by omega)]
  have h8 : decide (8 ≤ j) = !decide (j < 8) := by rw [← decide_not]; exact decide_eq_decide.mpr (by omega)
  simp only [formatC, BitVec.getLsbD_or, BitVec.getLsbD_shiftLeft, BitVec.getLsbD_setWidth, hj, decide_true,
    Bool.true_and, show j - 8 < 32 by omega, show j - 4 < 32 by omega, hb, h8]

@[simp] theorem resHField_formatC : resHField (formatC n b op) = 0 := by
  apply BitVec.eq_of_getLsbD_eq; intro i hi
  simp [resHField, hi, formatC_getLsbD n b op (15 + i) (by omega), BitVec.getLsbD_of_ge _ _ (show 7 ≤ 15 + i - 8 by omega),
    BitVec.getLsbD_of_ge _ _ (show 4 ≤ 15 + i by omega), show 15 + i ≠ 4 by omega]

@[simp] theorem nField_formatC : nField (formatC n b op) = BitVec.ofNat 7 n := by
  apply BitVec.eq_of_getLsbD_eq; intro i hi
  simp [nField, hi, formatC_getLsbD n b op (8 + i) (by omega), BitVec.getLsbD_of_ge _ _ (show 4 ≤ 8 + i by omega),
    show 8 + i ≠ 4 by omega]

@[simp] theorem resLField_formatC : resLField (formatC n b op) = 0 := by
  apply BitVec.eq_of_getLsbD_eq; intro i hi
  simp [resLField, hi, formatC_getLsbD n b op (5 + i) (by omega), show ¬ 8 ≤ 5 + i by omega,
    BitVec.getLsbD_of_ge _ _ (show 4 ≤ 5 + i by omega), show 5 + i ≠ 4 by omega]

@[simp] theorem sField_formatC : sField (formatC n b op) = b := by
  rw [sField, formatC_getLsbD n b op 4 (by omega)]
  simp

@[simp] theorem opField_formatC : opField (formatC n b op) = op := by
  apply BitVec.eq_of_getLsbD_eq; intro i hi
  simp [opField, hi, formatC_getLsbD n b op i (by omega), show ¬ 8 ≤ i by omega, show i ≠ 4 by omega]

/-- The decoder looks at nothing but the fields: its answer by the operation code. -/
theorem decode_of_fields {c : Word} (hH : resHField c = 0) (hL : resLField c = 0) :
    decode c = match (opField c).toNat with
      | 1 => decodeCount c .i2b
      | 2 => decodeSigned c
      | 3 => decodeCount c .swp
      | 4 => decodePlain c .by2b
      | 5 => decodePlain c .b2by
      | _ => .error .reservedOp := by
  exact (if_neg (by simp [hH])).trans (if_neg (by simp [hL]))

/-- The words of I2B and SWP as 30_encoding.md R56 writes them. -/
theorem formatC_count {op : BitVec 4} {k : Nat} (h : k < 128) :
    formatC k false op = op.setWidth 32 ||| BitVec.ofNat 32 k <<< 8 := by
  have hk : (BitVec.ofNat 7 k).setWidth 32 = BitVec.ofNat 32 k := by
    apply BitVec.eq_of_toNat_eq; simp; omega
  have h0 : (BitVec.ofBool false).setWidth 32 <<< 4 = 0#32 := by decide
  rw [formatC, hk, h0, BitVec.or_zero, BitVec.or_comm]

theorem countFits_iff {k : Nat} : countFits k = true ↔ k < 128 := by simp [countFits]

theorem nField_toNat_lt (c : Word) : (nField c).toNat < 128 := (nField c).isLt

end Sys2Proof
end

