-- ==== Sys2Proof/Laws/PerInstr.lean ====
section
/-! SUPPORT. Statements made per instruction. -/

namespace Sys2Proof.Laws.TableRow

/-- The command's word lies in the command's own row of the opcode map, with its reserved bits 0 (30_encoding.md R47,
R56). -/
def Statement (i : Instr) : Prop :=
  (opcodeRow i).selects (encode i) = true ∧ resHField (encode i) = 0 ∧ resLField (encode i) = 0

theorem i2b (w : Nat) : Statement (.i2b w) := by
  refine ⟨beq_iff_eq.mpr (word_ext_fields.mpr ?_), by simp [encode], by simp [encode]⟩
  have h : nField 0xFFFF80FF#32 = 0 := by decide
  have h1 : nField 0x00000001#32 = 0 := by decide
  simp [opcodeRow, encode, h, h1]
  decide

theorem b2i : Statement .b2i := by unfold Statement; decide

theorem b2is : Statement .b2is := by unfold Statement; decide

theorem swp (g : Nat) : Statement (.swp g) := by
  refine ⟨beq_iff_eq.mpr (word_ext_fields.mpr ?_), by simp [encode], by simp [encode]⟩
  have h : nField 0xFFFF80FF#32 = 0 := by decide
  have h1 : nField 0x00000003#32 = 0 := by decide
  simp [opcodeRow, encode, h, h1]
  decide

theorem by2b : Statement .by2b := by unfold Statement; decide

theorem b2by : Statement .b2by := by unfold Statement; decide

end Sys2Proof.Laws.TableRow
end

