-- ==== Sys2Proof/Laws/Step.lean ====
section
/-! SUPPORT. What one step can do, said once: the cases of an access, of a reset event and of an idle port, and what
every one of them leaves alone. -/

namespace Sys2Proof.Machine

/-- A meaning that answers t ends as Ending says. -/
theorem exec_ending_of_next (s : State) (i : Instr) {t : State} (h : exec i s = .next t) : Ending i s t := by
  obtain ⟨u, hu, he⟩ := exec_ending s i
  rw [h] at hu; cases hu; exact he

/-! ## What no command and no register write touches -/

/-- t has ID and everything outside the unit as s has them. -/
structure SameEnv (s t : State) : Prop where
  ident : t.idReg = s.idReg
  port : t.port = s.port
  responses : t.responses = s.responses
  inReset : t.inReset = s.inReset

theorem WritesOnly.sameEnv {i : Instr} {s t : State} (hw : WritesOnly i s t) : SameEnv s t := by
  cases i <;> simp only [WritesOnly] at hw <;>
    first
    | (rw [hw]; exact ⟨rfl, rfl, rfl, rfl⟩)
    | (rw [hw.1]; exact ⟨rfl, rfl, rfl, rfl⟩)

theorem Ending.sameEnv {i : Instr} {s t : State} (he : Ending i s t) : SameEnv s t := by
  cases he with
  | error e idx h _ => subst h; exact ⟨rfl, rfl, rfl, rfl⟩
  | success h hw hr => exact hw.sameEnv

theorem writeReg_sameEnv (s : State) (r : Reg) (v : Word) : SameEnv s (s.writeReg r v) := by
  constructor <;> cases r <;> rfl

@[simp] theorem writeReg_err (s : State) (r : Reg) (v : Word) : (s.writeReg r v).status.err = s.status.err := by
  cases r <;> simp [State.writeReg, statusHostWrite]
  split <;> rfl

@[simp] theorem writeReg_errIdx (s : State) (r : Reg) (v : Word) : (s.writeReg r v).status.errIdx = s.status.errIdx := by
  cases r <;> simp [State.writeReg, statusHostWrite]
  split <;> rfl

/-- Only a write to STATUS can change STATUS. -/
theorem writeReg_status {s : State} {r : Reg} (v : Word) (h : r ≠ .status) : (s.writeReg r v).status = s.status := by
  cases r <;> first | rfl | exact absurd rfl h

theorem regAt_eq_status_iff {off : Offset} (ha : off.toNat % 4 = 0) : regAt off = .status ↔ off = 0x04#8 := by
  revert off; decide +kernel

/-- The window: LANEWk stands at 0x20 + 4k (20_memory.md R28). -/
theorem regAt_laneW {k : Nat} (h : k < 16) : regAt (BitVec.ofNat 8 (0x20 + 4 * k)) = .laneW k := by
  revert k; decide +kernel

/-! ## The two words of INT -/

theorem extractLsb'_append_low (a b : Word) : (a ++ b : DWord).extractLsb' 0 32 = b := by
  apply BitVec.eq_of_getLsbD_eq; intro i hi
  have := BitVec.getLsbD_append (x := a) (y := b) (i := 0 + i)
  simp [hi] at this ⊢
  exact this

theorem extractLsb'_append_high (a b : Word) : (a ++ b : DWord).extractLsb' 32 32 = a := by
  apply BitVec.eq_of_getLsbD_eq; intro i hi
  have := BitVec.getLsbD_append (x := a) (y := b) (i := 32 + i)
  simp [hi] at this ⊢
  exact this

/-! ## The word of STATUS -/

/-- The bits of the word a read of STATUS returns (10_state.md R19). -/
theorem statusWord_getLsbD (st : Status) (i : Nat) (hi : i < 32) : (statusWord st).getLsbD i =
    ((decide (i = 16) && st.errSeen) || (decide (8 ≤ i) && st.errIdx.getLsbD (i - 8)) || st.err.getLsbD i) := by
  have hb : (!decide (i < 16) && (BitVec.ofBool st.errSeen).getLsbD (i - 16)) = (decide (i = 16) && st.errSeen) := by
    by_cases h : i = 16
    · subst h; cases st.errSeen <;> rfl
    · by_cases h4 : i < 16
      · simp [h4, h]
      · simp [h4, h, BitVec.getLsbD_of_ge _ _ (show 1 ≤ i - 16 by omega)]
  have h8 : decide (8 ≤ i) = !decide (i < 8) := by rw [← decide_not]; exact decide_eq_decide.mpr (by omega)
  simp only [statusWord, BitVec.getLsbD_or, BitVec.getLsbD_shiftLeft, BitVec.getLsbD_setWidth, hi, decide_true,
    Bool.true_and, show i - 8 < 32 by omega, show i - 16 < 32 by omega, hb, h8]

/-- The fields of the word a read of STATUS returns (10_state.md R19). -/
theorem statusWord_fields (st : Status) : (statusWord st).extractLsb' 0 3 = st.err
    ∧ (statusWord st).extractLsb' 8 7 = st.errIdx ∧ (statusWord st).getLsbD 16 = st.errSeen := by
  refine ⟨?_, ?_, ?_⟩
  · apply BitVec.eq_of_getLsbD_eq; intro i hi
    rw [BitVec.getLsbD_extractLsb', statusWord_getLsbD _ _ (by omega)]
    simp [hi, show ¬ 8 ≤ i by omega, show i ≠ 16 by omega]
  · apply BitVec.eq_of_getLsbD_eq; intro i hi
    rw [BitVec.getLsbD_extractLsb', statusWord_getLsbD _ _ (by omega), BitVec.getLsbD_of_ge st.err _ (by omega)]
    simp [hi, show 8 + i ≠ 16 by omega]
  · rw [statusWord_getLsbD _ _ (by omega), BitVec.getLsbD_of_ge st.err _ (by omega),
      BitVec.getLsbD_of_ge st.errIdx _ (by omega)]
    simp

/-! ## One step -/

/-- A CMD write raises IllegalCommand or runs the command its word decodes to (10_state.md R21, 30_encoding.md R46). -/
theorem step_cmd (s : State) (c : Word) (h : s.inReset = false) :
    ∃ t, step (s.offer (wr 0x00#8 c)) = .next (t.respond (.write false))
      ∧ ((∃ why, decode c = .error why ∧ t = s.raise .illegalCommand 0)
        ∨ ∃ i, decode c = .ok i ∧ exec i s = .next t ∧ Ending i s t) := by
  cases hd : decode c with
  | ok i =>
    obtain ⟨t, ht, he⟩ := exec_ending s i
    exact ⟨t, (step_cmd_ok s h hd).trans (by rw [ht]; rfl), .inr ⟨i, rfl, ht, he⟩⟩
  | error why => exact ⟨_, step_cmd_error s h hd, .inl ⟨why, rfl, rfl⟩⟩

/-- A state whose port is not empty is another state with that event offered. -/
theorem offer_of_port {s : State} {e : PortEvent} {rest : List PortEvent} (h : s.port = e :: rest) :
    s = ({ s with port := rest } : State).offer e := by
  cases s; simp [State.offer] at *; exact h

theorem offer_inj {s u : State} {e f : PortEvent} (h : s.offer e = u.offer f) : s = u ∧ e = f := by
  cases u; cases s; simp [State.offer] at h ⊢; simp_all

theorem step_idle {s : State} (h : s.port = []) : step s = .next s := by simp [step, takeEvent, h]

theorem step_assertReset (s : State) : step (s.offer .assertReset) = .next { s.applyReset with inReset := true } := rfl

theorem step_releaseReset {s : State} (h : s.inReset = true) :
    step (s.offer .releaseReset) = .next { s.applyReset with inReset := false } := by
  show Host.Outcome.next (if s.inReset = true then _ else _) = _
  rw [if_pos h]; rfl

theorem step_releaseReset_idle {s : State} (h : s.inReset = false) : step (s.offer .releaseReset) = .next s := by
  show Host.Outcome.next (if s.inReset = true then _ else _) = _
  rw [if_neg (by simp [h])]; rfl

theorem step_access_inReset {s : State} (a : Access) (h : s.inReset = true) :
    step (s.offer (.access a)) = .refused .accessDuringReset := by
  show (match (if s.inReset = true then Taken.stop .accessDuringReset else _) with
    | .done t => Host.Outcome.next t | .stop r => .refused r | .command c t => _) = _
  rw [if_pos h]

/-- What an access leaves, before its response: the state itself, the state with one register written, or the ending of
a command. -/
inductive AfterAccess (s : State) (a : Access) : State → Prop where
  | unchanged : AfterAccess s a s
  | wrote (v : Word) (ha : a = ⟨a.off, .four, .write v⟩) (h4 : a.off.toNat % 4 = 0) (hc : a.off ≠ 0x00#8) :
      AfterAccess s a (s.writeReg (regAt a.off) v)
  | illegal (c : Word) (ha : a = cmdWrite c) : AfterAccess s a (s.raise .illegalCommand 0)
  | ran (c : Word) (ha : a = cmdWrite c) (i : Instr) (t : State) (he : Ending i s t) : AfterAccess s a t

theorem AfterAccess.sameEnv {s t : State} {a : Access} (h : AfterAccess s a t) : SameEnv s t := by
  cases h with
  | unchanged => exact ⟨rfl, rfl, rfl, rfl⟩
  | wrote v _ _ _ => exact writeReg_sameEnv s _ v
  | illegal c _ => exact ⟨rfl, rfl, rfl, rfl⟩
  | ran c _ i t he => exact he.sameEnv

theorem serveAccess_cases (s : State) (a : Access) :
    (∃ c, a = cmdWrite c ∧ serveAccess a s = .command c s)
    ∨ ∃ r t, serveAccess a s = .done (t.respond r) ∧ AfterAccess s a t
        ∧ (readValue r).isSome = decide (a.op = .read) := by
  obtain ⟨off, size, op⟩ := a
  by_cases hs : Access.served ⟨off, size, op⟩ = true
  · obtain ⟨h1, h2⟩ := (Access.served_iff _).mp hs
    simp only at h1 h2; subst h1
    cases op with
    | read => exact .inr ⟨_, s, by simp [serveAccess, hs]; rfl, .unchanged, rfl⟩
    | write v =>
      by_cases hc : off = 0x00#8
      · subst hc; exact .inl ⟨v, rfl, by simp [serveAccess, hs, regAt]⟩
      · have hr : regAt off ≠ .cmd := fun e => hc (regAt_eq_cmd_iff.mp e)
        exact .inr ⟨_, _, by simp [serveAccess, hs]; rfl, .wrote v rfl h2 hc, rfl⟩
  · refine .inr ⟨busErrorResponse op, s, by simp [serveAccess, hs], .unchanged, ?_⟩
    cases op <;> rfl

/-- With reset released every access is answered, a read by a value and a write by a response. -/
theorem step_access (s : State) (a : Access) (h : s.inReset = false) :
    ∃ t r, step (s.offer (.access a)) = .next (t.respond r) ∧ AfterAccess s a t
      ∧ (readValue r).isSome = decide (a.op = .read) := by
  rcases serveAccess_cases s a with ⟨c, ha, hc⟩ | ⟨r, t, ht, h2, h3⟩
  · cases hd : decode c with
    | ok i =>
      obtain ⟨t, ht, he⟩ := exec_ending s i
      refine ⟨t, .write false, ?_, .ran c ha i t he, by rw [ha]; rfl⟩
      simp [step, takeEvent_offer_access _ _ h, hc, hd, ht]
    | error why =>
      refine ⟨_, .write false, ?_, .illegal c ha, by rw [ha]; rfl⟩
      simp [step, takeEvent_offer_access _ _ h, hc, hd, State.rejectCommand]
  · exact ⟨t, r, by simp [step, takeEvent_offer_access _ _ h, ht], h2, h3⟩

/-- Everything one step can be. -/
inductive StepCase : State → State → Prop where
  | idle (s : State) (h : s.port = []) : StepCase s s
  | access (u : State) (a : Access) (t : State) (r : Response) (hr : u.inReset = false) (h : AfterAccess u a t) :
      StepCase (u.offer (.access a)) (t.respond r)
  | assertReset (u : State) : StepCase (u.offer .assertReset) { u.applyReset with inReset := true }
  | releaseReset (u : State) (hr : u.inReset = true) :
      StepCase (u.offer .releaseReset) { u.applyReset with inReset := false }
  | releaseIdle (u : State) (hr : u.inReset = false) : StepCase (u.offer .releaseReset) u

/-- Every step that has a next state is one of the cases. -/
theorem step_cases {s t : State} (h : step s = .next t) : StepCase s t := by
  cases hp : s.port with
  | nil =>
    rw [step_idle hp] at h; cases h; exact .idle s hp
  | cons e rest =>
    obtain ⟨u, rfl⟩ : ∃ u : State, s = u.offer e := ⟨_, offer_of_port hp⟩
    clear hp
    cases e with
    | access a =>
      cases hr : u.inReset with
      | true => rw [step_access_inReset a hr] at h; cases h
      | false =>
        obtain ⟨v, r, h1, h2, -⟩ := step_access u a hr
        rw [h1] at h; cases h
        exact .access u a v r hr h2
    | assertReset => rw [step_assertReset] at h; cases h; exact .assertReset u
    | releaseReset =>
      cases hr : u.inReset with
      | true => rw [step_releaseReset hr] at h; cases h; exact .releaseReset u hr
      | false => rw [step_releaseReset_idle hr] at h; cases h; exact .releaseIdle _ hr

end Sys2Proof.Machine
end

