-- ==== Sys2Proof/Laws/Run.lean ====
section
/-! SUPPORT. Runs: what waits at the port behind an access changes nothing of that access, and a run goes on from where
its first part ends. -/

namespace Sys2Proof.Machine

/-- The state with more events behind everything at the port. -/
def State.behind (x : List PortEvent) (s : State) : State := { s with port := s.port ++ x }

/-- An outcome with f applied to its next state. -/
def mapNext (f : State → State) : Host.Outcome State Fault Refusal → Host.Outcome State Fault Refusal
  | .next t => .next (f t)
  | .fault e => .fault e
  | .refused r => .refused r

variable (x : List PortEvent) (s : State)

theorem convertBits_behind (value : List Bool → DWord) :
    (s.behind x).convertBits value = (s.convertBits value).behind x := by
  by_cases h : 64 < s.llen.toNat
  · rw [convertBits_range s _ h, convertBits_range (s.behind x) _ h]; rfl
  have h' := Nat.not_lt.mp h
  obtain hb | ⟨j, hj⟩ := allAccepted_or_firstBad s IsBit
  · rw [convertBits_ok s _ h' hb, convertBits_ok (s.behind x) _ h' hb]; rfl
  · rw [convertBits_bad s _ h' hj, convertBits_bad (s.behind x) _ h' hj]; rfl

/-- No command looks at what waits at the port. -/
theorem exec_behind (i : Instr) : exec i (s.behind x) = mapNext (State.behind x) (exec i s) := by
  cases i with
  | i2b w =>
    by_cases h : 64 < w
    · rw [exec_i2b_range s h, exec_i2b_range _ h]; rfl
    · rw [exec_i2b_eq s (by omega), exec_i2b_eq _ (by omega)]; rfl
  | b2i => exact congrArg Host.Outcome.next (convertBits_behind x s _)
  | b2is => exact congrArg Host.Outcome.next (convertBits_behind x s _)
  | swp g =>
    by_cases h : g = 0 ∨ 64 < s.llen.toNat
    · rw [exec_swp_range s h, exec_swp_range (s.behind x) h]; rfl
    · have h2 : s.llen.toNat ≤ 64 := by omega
      rw [exec_swp_eq s (by omega) h2, exec_swp_eq (s.behind x) (by omega) h2]; rfl
  | by2b =>
    by_cases h : 8 < s.blen.toNat
    · rw [exec_by2b_range s h, exec_by2b_range (s.behind x) h]; rfl
    · rw [exec_by2b_eq s (Nat.not_lt.mp h), exec_by2b_eq (s.behind x) (Nat.not_lt.mp h)]; rfl
  | b2by =>
    by_cases h : 64 < s.llen.toNat
    · rw [exec_b2by_range s h, exec_b2by_range (s.behind x) h]; rfl
    have h' := Nat.not_lt.mp h
    by_cases h8 : s.llen.toNat % 8 = 0
    · obtain hb | ⟨j, hj⟩ := allAccepted_or_firstBad s IsCanonicalLane
      · rw [exec_b2by_eq s h' h8 hb, exec_b2by_eq (s.behind x) h' h8 hb]; rfl
      · rw [exec_b2by_bad s h' h8 hj, exec_b2by_bad (s.behind x) h' h8 hj]; rfl
    · rw [exec_b2by_length s h' h8, exec_b2by_length (s.behind x) h' h8]; rfl

/-- An access has its full effect whatever waits behind it (20_memory.md R38). -/
theorem step_behind (a : Access) (h : s.inReset = false) :
    step ((s.offer (.access a)).behind x) = mapNext (State.behind x) (step (s.offer (.access a))) := by
  have hb : (s.offer (.access a)).behind x = (s.behind x).offer (.access a) := rfl
  rw [hb]
  by_cases hs : a.served = true
  · obtain ⟨off, size, op⟩ := a
    obtain ⟨h1, h2⟩ := (Access.served_iff _).mp hs
    simp only at h1 h2; subst h1
    cases op with
    | read =>
      rw [show PortEvent.access ⟨off, .four, .read⟩ = rd off from rfl, step_rd s h h2, step_rd (s.behind x) h h2]
      cases regAt off <;> rfl
    | write v =>
      rw [show PortEvent.access ⟨off, .four, .write v⟩ = wr off v from rfl]
      by_cases hc : off = 0x00#8
      · subst hc
        cases hd : decode v with
        | ok i =>
          rw [step_cmd_ok s h hd, step_cmd_ok (s.behind x) h hd, exec_behind]
          cases exec i s <;> rfl
        | error why => rw [step_cmd_error s h hd, step_cmd_error (s.behind x) h hd]; rfl
      · rw [step_wr s v h h2 hc, step_wr (s.behind x) v h h2 hc]
        cases regAt off <;> rfl
  · have hs' : a.served = false := by simpa using hs
    rw [step_busError s h hs', step_busError (s.behind x) h hs']; rfl

/-- A run of m + n steps is a run of m steps and then of n steps. -/
theorem run_add (m n : Nat) {s t : State} (h : run m s = .next t) : run (m + n) s = run n t := by
  induction m generalizing s with
  | zero => cases h; simp
  | succ m ih =>
    rw [Nat.succ_add]
    simp only [run] at h ⊢
    cases hs : step s with
    | next u => rw [hs] at h; exact ih h
    | fault f => rw [hs] at h; cases h
    | refused r => rw [hs] at h; cases h

end Sys2Proof.Machine
end

