-- ==== Sys2Proof/Laws/Window.lean ====
section
/-! SUPPORT. The read-after-write laws of the register window: what was written to a data register is read back there,
and every other register reads as before. -/

namespace Sys2Proof.Machine

/-- The offset of a register (20_memory.md R28). -/
def regOffset : Reg → Nat
  | .cmd => 0x00
  | .status => 0x04
  | .intLo => 0x08
  | .intHi => 0x0C
  | .llen => 0x10
  | .blen => 0x14
  | .bytesLo => 0x18
  | .bytesHi => 0x1C
  | .laneW k => 0x20 + 4 * k
  | .ident => 0x60
  | .reserved => 0x64

theorem regOffset_regAt {off : Offset} (h : regAt off ≠ .reserved) (ha : off.toNat % 4 = 0) :
    regOffset (regAt off) = off.toNat := by
  revert off; decide +kernel

/-- A register that is no reserved offset stands at one offset only. -/
theorem regAt_injective {off off' : Offset} (h : regAt off ≠ .reserved) (ha : off.toNat % 4 = 0)
    (ha' : off'.toNat % 4 = 0) (he : regAt off' = regAt off) : off' = off := by
  apply BitVec.eq_of_toNat_eq
  rw [← regOffset_regAt h ha, ← regOffset_regAt (he ▸ h) ha', he]

theorem regAt_laneW_lt {off : Offset} {k : Nat} (h : regAt off = .laneW k) : k < 16 := by
  have : ∀ off : Offset, (match regAt off with | .laneW k => decide (k < 16) | _ => true) = true := by decide +kernel
  have := this off
  rw [h] at this
  exact of_decide_eq_true this

theorem packWord_wordByte (v : Word) : packWord (wordByte v 3) (wordByte v 2) (wordByte v 1) (wordByte v 0) = v := by
  apply BitVec.eq_of_getLsbD_eq; intro i hi
  simp only [packWord, wordByte, BitVec.getLsbD_append, BitVec.getLsbD_extractLsb']
  by_cases h0 : i < 8
  · simp [h0]
  by_cases h1 : i < 16
  · simp [h0, show i - 8 < 8 by omega, show 8 + (i - 8) = i by omega]
  by_cases h2 : i < 24
  · simp [h0, show ¬ i - 8 < 8 by omega, show i - 8 - 8 < 8 by omega, show 16 + (i - 8 - 8) = i by omega]
  · simp [h0, show ¬ i - 8 < 8 by omega, show ¬ i - 8 - 8 < 8 by omega, show i - 8 - 8 - 8 < 8 by omega,
      show 24 + (i - 8 - 8 - 8) = i by omega]

/-- Cutting a word to its low n bits is masking it. -/
theorem setWidth_extractLsb'_low (n : Nat) (h : n ≤ 32) (v : Word) :
    (v.extractLsb' 0 n).setWidth 32 = v &&& BitVec.ofNat 32 (2 ^ n - 1) := by
  apply BitVec.eq_of_toNat_eq
  have h1 : 2 ^ n ≤ 2 ^ 32 := Nat.pow_le_pow_right (by omega) h
  have h2 : 0 < 2 ^ n := Nat.two_pow_pos n
  have h3 : v.toNat % 2 ^ n < 2 ^ n := Nat.mod_lt _ h2
  rw [BitVec.toNat_and, BitVec.toNat_ofNat, Nat.mod_eq_of_lt (by omega : 2 ^ n - 1 < 2 ^ 32), Nat.and_two_pow_sub_one_eq_mod,
    BitVec.toNat_setWidth, BitVec.extractLsb'_toNat, Nat.shiftRight_zero, Nat.mod_eq_of_lt (by omega)]

/-- Reading a data register after a write to it (20_memory.md R31, R32, R33, R34; 10_state.md R16, R18). -/
theorem readReg_writeReg_self (s : State) (v : Word) :
    (s.writeReg .intLo v).readReg .intLo = v ∧ (s.writeReg .intHi v).readReg .intHi = v
    ∧ (s.writeReg .llen v).readReg .llen = v &&& 0x0000007F#32
    ∧ (s.writeReg .blen v).readReg .blen = v &&& 0x0000000F#32
    ∧ (s.writeReg .bytesLo v).readReg .bytesLo = v ∧ (s.writeReg .bytesHi v).readReg .bytesHi = v
    ∧ ∀ k, k < 16 → (s.writeReg (.laneW k) v).readReg (.laneW k) = v := by
  refine ⟨extractLsb'_append_low _ _, extractLsb'_append_high _ _, setWidth_extractLsb'_low 7 (by omega) v,
    setWidth_extractLsb'_low 4 (by omega) v, ?_, ?_, fun k hk => ?_⟩
  · simp only [State.readReg, State.writeReg]
    rw [s.byteAt_setBytes _ (by omega), s.byteAt_setBytes _ (by omega), s.byteAt_setBytes _ (by omega),
      s.byteAt_setBytes _ (by omega)]
    exact packWord_wordByte v
  · simp only [State.readReg, State.writeReg]
    rw [s.byteAt_setBytes _ (by omega), s.byteAt_setBytes _ (by omega), s.byteAt_setBytes _ (by omega),
      s.byteAt_setBytes _ (by omega)]
    exact packWord_wordByte v
  · simp only [State.readReg, State.writeReg]
    rw [s.laneAt_setLanes _ (by omega), s.laneAt_setLanes _ (by omega), s.laneAt_setLanes _ (by omega),
      s.laneAt_setLanes _ (by omega)]
    simp only [show (4 * k + 3) / 4 = k by omega, show (4 * k + 2) / 4 = k by omega, show (4 * k + 1) / 4 = k by omega,
      show 4 * k / 4 = k by omega, show (4 * k + 3) % 4 = 3 by omega, show (4 * k + 2) % 4 = 2 by omega,
      show (4 * k + 1) % 4 = 1 by omega, show 4 * k % 4 = 0 by omega, if_true]
    exact packWord_wordByte v

/-- Reading another register after a write (20_memory.md R31). -/
theorem readReg_writeReg_of_ne (s : State) {r r' : Reg} (v : Word) (h : r' ≠ r) (hs : r ≠ .status)
    (hk : ∀ k, r' = .laneW k → k < 16) : (s.writeReg r v).readReg r' = s.readReg r' := by
  have hb : ∀ f k, k < 8 → (s.setBytes f).byteAt k = f k := fun f k hk => s.byteAt_setBytes f hk
  cases r with
  | cmd | ident | reserved => rfl
  | status => exact absurd rfl hs
  | intLo =>
    cases r' <;> first | rfl | exact absurd rfl h | exact extractLsb'_append_high _ _
  | intHi =>
    cases r' <;> first | rfl | exact absurd rfl h | exact extractLsb'_append_low _ _
  | llen => cases r' <;> first | rfl | exact absurd rfl h
  | blen => cases r' <;> first | rfl | exact absurd rfl h
  | bytesLo =>
    cases r' with
    | bytesLo => exact absurd rfl h
    | bytesHi => simp only [State.readReg, State.writeReg]; rw [hb _ _ (by omega), hb _ _ (by omega), hb _ _ (by omega),
        hb _ _ (by omega)]; rfl
    | _ => rfl
  | bytesHi =>
    cases r' with
    | bytesHi => exact absurd rfl h
    | bytesLo => simp only [State.readReg, State.writeReg]; rw [hb _ _ (by omega), hb _ _ (by omega), hb _ _ (by omega),
        hb _ _ (by omega)]; rfl
    | _ => rfl
  | laneW k =>
    cases r' with
    | laneW j =>
      have hj := hk j rfl
      have hne : j ≠ k := fun e => h (by rw [e])
      simp only [State.readReg, State.writeReg]
      rw [s.laneAt_setLanes _ (by omega), s.laneAt_setLanes _ (by omega), s.laneAt_setLanes _ (by omega),
        s.laneAt_setLanes _ (by omega)]
      rw [if_neg (by omega), if_neg (by omega), if_neg (by omega), if_neg (by omega)]
    | _ => rfl

end Sys2Proof.Machine
end

