-- ==== Sys2Proof/Tests/Slice0.lean ====
section
/-! SUPPORT. The model's own tests. Every expected value comes from spec/ (the vector's number in 95_test_vectors.md, or
the rule, stands beside it). The witnesses at the end meet the hypotheses of the statements. -/

namespace Sys2Proof.Tests

open Sys2Proof.Machine

/-! ## Helpers -/

/-- The reset state with a sequence of n lanes, whose first values are l. -/
def lanesOf (l : List Byte) (n : Nat) : State :=
  { State.reset with lane := bufferOf 64 (fun i => l.getD i 0), llen := BitVec.ofNat 7 n }

/-- The reset state with a byte-sequence of n bytes, whose first values are l. -/
def bytesOf (l : List Byte) (n : Nat) : State :=
  { State.reset with bytes := bufferOf 8 (fun i => l.getD i 0), blen := BitVec.ofNat 4 n }

/-- The reset state with INT = v. -/
def intOf (v : DWord) : State := { State.reset with int := v }

/-- What f says of the next state, none where there is none. -/
def ofNext {α : Type} (f : State → α) : Host.Outcome State Fault Refusal → Option α
  | .next t => some (f t)
  | .fault _ => none
  | .refused _ => none

/-- The first n lanes. -/
def firstLanes (n : Nat) (t : State) : List Byte := t.lane.toList.take n

/-- One access on a state. -/
def served (e : PortEvent) (s : State) : Host.Outcome State Fault Refusal := step (s.offer e)

/-! ## WellFormed refuses what no encoding holds -/

theorem test_wellFormed_refuses_i2b_128 : WellFormed (.i2b 128) = false := by decide
theorem test_wellFormed_refuses_swp_128 : WellFormed (.swp 128) = false := by decide
theorem test_wellFormed_accepts_boundary : WellFormed (.i2b 127) = true ∧ WellFormed (.swp 127) = true
    ∧ WellFormed (.i2b 0) = true ∧ WellFormed (.swp 0) = true := by decide

/-! ## Decoding: words written bit by bit from 30_encoding.md R47 and R56 -/

theorem test_decode_i2b : decode 0b00000000000000000000010100000001#32 = .ok (.i2b 5) := by decide
theorem test_decode_b2i : decode 0b00000000000000000000000000000010#32 = .ok .b2i := by decide
theorem test_decode_b2is : decode 0b00000000000000000000000000010010#32 = .ok .b2is := by decide
theorem test_decode_swp : decode 0b00000000000000000111111100000011#32 = .ok (.swp 127) := by decide
theorem test_decode_by2b : decode 0b00000000000000000000000000000100#32 = .ok .by2b := by decide
theorem test_decode_b2by : decode 0b00000000000000000000000000000101#32 = .ok .b2by := by decide

/-- Z1 to Z10: each clause of R51 refuses. -/
theorem test_decode_refuses : [0x00000000#32, 0x00008000#32, 0x00000021#32, 0x00000011#32, 0x00000013#32, 0x00000102#32,
    0x00000104#32, 0x00000105#32, 0x00000006#32, 0x0000000F#32].all (fun c => (decode c).toOption.isNone) = true := by
  decide

/-- spec/opcode_table.json's numbering: bit 0 is the word's least significant bit. -/
theorem test_decodeTableWord : decodeTableWord 32 0x00000803 = some (.swp 8) ∧ decodeTableWord 32 0x00000000 = none := by
  decide

/-! ## One step of each command -/

/-- The step fetches and runs the word that withFetchWord places: S1. -/
theorem test_step_i2b : ofNext (fun t => (firstLanes 5 t, t.llen, statusWord t.status, t.port))
    (step ((intOf 19).withFetchWord 32 0x501)) = some ([1, 0, 0, 1, 1], 5, 0, []) := by decide +kernel

/-- T11: the lanes beyond the width become 0x00. -/
theorem test_i2b_clears_lanes : ofNext (fun t => (t.laneAt 4, t.laneAt 63, t.llen))
    (exec (.i2b 4) (lanesOf (List.replicate 64 0x55) 7)) = some (0, 0, 4) := by decide +kernel

/-- V2: lanes 1,0,0,1,1 read as 19, lane 5 is not read. -/
theorem test_b2i : ofNext (fun t => (t.int, statusWord t.status)) (exec .b2i (lanesOf [1, 0, 0, 1, 1, 0x77] 5))
    = some (0x13, 0) := by decide +kernel

/-- V12: the first lane that is no Bit is lane 4. -/
theorem test_b2i_invalid : ofNext (fun t => (t.int, statusWord t.status))
    (exec .b2i { lanesOf [1, 0, 0x30, 0x31, 0x41] 5 with int := 0x1234 }) = some (0x1234, 0x00010401) := by decide +kernel

/-- V2: the same lanes read as -13. -/
theorem test_b2is : ofNext (fun t => t.int) (exec .b2is (lanesOf [1, 0, 0, 1, 1] 5)) = some 0xFFFFFFFFFFFFFFF3 := by
  decide +kernel

/-- V4: ASCII lanes "1101" read as -3. -/
theorem test_b2is_ascii : ofNext (fun t => t.int) (exec .b2is (lanesOf [0x31, 0x31, 0x30, 0x31] 4))
    = some 0xFFFFFFFFFFFFFFFD := by decide +kernel

/-- W7: the short run moves to the front. -/
theorem test_swp : ofNext (firstLanes 10) (exec (.swp 3) (lanesOf [0, 1, 2, 3, 4, 5, 6, 7, 8, 9] 10))
    = some [9, 6, 7, 8, 3, 4, 5, 0, 1, 2] := by decide +kernel

/-- W13: lanes beyond the sequence stay. -/
theorem test_swp_keeps_beyond : ofNext (fun t => (firstLanes 4 t, t.laneAt 10))
    (exec (.swp 1) (lanesOf [0, 1, 2, 3, 0, 0, 0, 0, 0, 0, 0x99] 4)) = some ([3, 2, 1, 0], 0x99) := by decide +kernel

/-- X1: "ab". -/
theorem test_by2b : ofNext (fun t => (firstLanes 17 t, t.llen)) (exec .by2b (bytesOf [0x61, 0x62] 2))
    = some ([0, 1, 1, 0, 0, 0, 0, 1, 0, 1, 1, 0, 0, 0, 1, 0, 0], 16) := by decide +kernel

/-- X8: BLEN = 9. -/
theorem test_by2b_range : ofNext (fun t => (t.llen, statusWord t.status)) (exec .by2b (bytesOf [] 9))
    = some (0, 0x00010005) := by decide +kernel

/-- Y1. -/
theorem test_b2by : ofNext (fun t => (t.blen, t.readReg .bytesLo))
    (exec .b2by (lanesOf [0, 1, 1, 0, 0, 0, 0, 1, 0, 1, 1, 0, 0, 0, 1, 0] 16)) = some (2, 0x00006261) := by decide +kernel

/-- Y8: MalformedLength comes before InvalidBitPattern. -/
theorem test_b2by_length_first : ofNext (fun t => (t.blen, statusWord t.status))
    (exec .b2by (lanesOf (List.replicate 12 0x30) 12)) = some (0, 0x00010002) := by decide +kernel

/-! ## The window and the assembler -/

/-- 20_memory.md R33's example: 0x0000_6261 to BYTES_LO. -/
theorem test_write_bytesLo : ofNext (fun t => (t.byteAt 0, t.byteAt 1, t.byteAt 2, t.byteAt 4))
    (served (wr 0x18 0x00006261) (bytesOf (List.replicate 8 9) 8)) = some (0x61, 0x62, 0, 9) := by decide +kernel

/-- 20_memory.md R29: a narrow read gets a bus error and data 0. -/
theorem test_bus_error : ofNext (fun t => t.responses) (served (.access ⟨0x60, .one, .read⟩) State.reset)
    = some [.read 0 true] := by decide +kernel

/-- 30_encoding.md R54: text to accesses. -/
theorem test_assembler : (Asm.parse "cmd SWP 0x2".toList).bind Asm.stmtAccesses = some [⟨0x00, .four, .write 0x00000203⟩]
    ∧ Asm.parse "rd LANEW15".toList = some (.rd 0x5C) := by decide +kernel

/-! ## Witnesses: states and operands that meet the statements' hypotheses -/

/-- DecodeOfEncodeIsIdentity, EncodeOfDecodeIsIdentity: both ends of N. -/
theorem test_witness_wellFormed_word : decode 0x00007F01#32 = .ok (.i2b 127) ∧ decode 0x00000003#32 = .ok (.swp 0)
    ∧ WellFormed (.i2b 127) = true ∧ WellFormed (.swp 0) = true := by decide

/-- IllegalWordRaisesIllegalCommand, ErrorPriority, EveryCommandWritesStatus: a word for each clause of R51, and one for
none. -/
theorem test_witness_illegalWord : State.reset.inReset = false ∧ IllegalWord 0x00008001#32 ∧ IllegalWord 0x00000021#32
    ∧ IllegalWord 0x00000006#32 ∧ IllegalWord 0x00000011#32 ∧ IllegalWord 0x00000102#32 ∧ ¬ IllegalWord 0x00004101#32 := by
  refine ⟨rfl, ?_, ?_, ?_, ?_, ?_, ?_⟩ <;> (unfold IllegalWord; decide)

/-- StepRunsDecodedCommand, AlignedAccessEffects: a word that decodes, and the next state of its command. -/
theorem test_witness_step_runs : State.reset.inReset = false ∧ decode 0x00000012#32 = .ok .b2is
    ∧ ∃ t, exec .b2is State.reset = .next t := ⟨rfl, by decide, _, rfl⟩

/-- IdleStepKeepsState, HostProgramRunsToItsEnd: an idle port; and a program with an end. -/
theorem test_witness_idle_port : State.reset.port = [] ∧ State.reset.inReset = false
    ∧ ∃ t, runProgram [cmdWrite 0x00000501] State.reset = .next t := ⟨rfl, rfl, _, rfl⟩

/-- The sequence with a bad lane at its last place, LLEN = 64. -/
def badLast (e : Byte) : State := lanesOf (List.replicate 63 1 ++ [e]) 64

/-- B2iReadsUnsigned, B2isReadsTwosComplement: LLEN 65 and 127; a bad lane at 0 and at 63; Bits everywhere with LLEN 64,
and the empty sequence. -/
theorem test_witness_b2i_clauses : 64 < (lanesOf [] 65).llen.toNat ∧ 64 < (lanesOf [] 127).llen.toNat
    ∧ ((badLast 2).llen.toNat ≤ 64 ∧ FirstBadLane IsBit (badLast 2) 63)
    ∧ ((lanesOf [2] 1).llen.toNat ≤ 64 ∧ FirstBadLane IsBit (lanesOf [2] 1) 0)
    ∧ ((badLast 0x30).llen.toNat ≤ 64 ∧ ∀ i, i < (badLast 0x30).llen.toNat → IsBit ((badLast 0x30).laneAt i))
    ∧ ((lanesOf [2] 0).llen.toNat ≤ 64 ∧ ∀ i, i < (lanesOf [2] 0).llen.toNat → IsBit ((lanesOf [2] 0).laneAt i)) := by
  unfold FirstBadLane IsBit; decide +kernel

/-- B2byReducesLanes, ErrorPriority: LLEN 65; LLEN 63; a bad lane at 63 and at 0; canonical lanes with LLEN 64, and the
empty sequence. -/
theorem test_witness_b2by_clauses : 64 < (lanesOf [] 65).llen.toNat
    ∧ ((lanesOf [] 63).llen.toNat ≤ 64 ∧ (lanesOf [] 63).llen.toNat % 8 ≠ 0)
    ∧ ((badLast 0x31).llen.toNat ≤ 64 ∧ (badLast 0x31).llen.toNat % 8 = 0
        ∧ FirstBadLane IsCanonicalLane (badLast 0x31) 63)
    ∧ ((lanesOf [0x30] 8).llen.toNat ≤ 64 ∧ (lanesOf [0x30] 8).llen.toNat % 8 = 0
        ∧ FirstBadLane IsCanonicalLane (lanesOf [0x30] 8) 0)
    ∧ ((badLast 1).llen.toNat ≤ 64 ∧ (badLast 1).llen.toNat % 8 = 0
        ∧ ∀ i, i < (badLast 1).llen.toNat → IsCanonicalLane ((badLast 1).laneAt i))
    ∧ ((lanesOf [2] 0).llen.toNat ≤ 64 ∧ (lanesOf [2] 0).llen.toNat % 8 = 0
        ∧ ∀ i, i < (lanesOf [2] 0).llen.toNat → IsCanonicalLane ((lanesOf [2] 0).laneAt i)) := by
  unfold FirstBadLane IsCanonicalLane; decide +kernel

/-- SwpReversesRuns, SwpLaws, PermissiveCasesAreNoErrors: g = 0 and LLEN = 65; g = 1 and 127 at LLEN 64, g dividing LLEN
and not, LLEN = 0; the runs' number and the last run's length. -/
theorem test_witness_swp_clauses : 64 < (lanesOf [] 65).llen.toNat
    ∧ ((lanesOf [] 64).llen.toNat ≤ 64 ∧ 64 = ((lanesOf [] 64).llen.toNat + 1 - 1) / 1 ∧ 1 = (lanesOf [] 64).llen.toNat - 63 * 1
        ∧ (lanesOf [] 64).llen.toNat % 1 = 0 ∧ (lanesOf [] 64).llen.toNat ≤ 127)
    ∧ (3 = ((lanesOf [] 5).llen.toNat + 2 - 1) / 2 ∧ 1 = (lanesOf [] 5).llen.toNat - 2 * 2 ∧ (lanesOf [] 5).llen.toNat % 2 ≠ 0)
    ∧ (0 = ((lanesOf [] 0).llen.toNat + 127 - 1) / 127 ∧ (lanesOf [] 0).llen = 0 ∧ (lanesOf [] 0).llen.toNat % 127 = 0)
    ∧ ((lanesOf [10, 11, 12, 13, 14] 5).llen = 5 ∧ (lanesOf [10, 11, 12, 13, 14] 5).sequence = [10, 11, 12, 13, 14])
    ∧ ((lanesOf [] 64).llen.toNat = 8 * 8 ∧ (lanesOf [] 8).llen.toNat = 8 * 1) := by decide +kernel

/-- I2bTruncatesIntoLanes, IntegerRoundTrips, SourceAlgorithmYieldsI2bLanes, PseudoInstructions,
CommandsRunRightAfterReset, AssemblerDefaultsAndRefusals: both sides of the width's bound, run. -/
theorem test_witness_i2b_bounds : (0 ≤ 64 ∧ 64 ≤ 64 ∧ 64 < 65 ∧ 127 < 128 ∧ 2 ^ 32 ≤ 0x100000000)
    ∧ ofNext (fun t => (t.llen, t.laneAt 0, t.laneAt 63, t.status.err)) (exec (.i2b 64) (intOf 0x8000000000000001))
        = some (64, 1, 1, 0)
    ∧ ofNext (fun t => (t.llen, t.status.err)) (exec (.i2b 65) (intOf 1)) = some (0, 5) := by decide +kernel

/-- IntIsTwoWords, BytesArePackedLittleEndian, LanesArePackedLittleEndian, StatusAndCmdReadAsMapped: reset is released,
and the first and the last LANEWk, written. -/
theorem test_witness_lane_words : State.reset.inReset = false ∧ 0 < 16 ∧ 15 < 16
    ∧ ofNext (fun t => (t.laneAt 0, t.laneAt 3)) (served (wr (BitVec.ofNat 8 (0x20 + 4 * 0)) 0x04030201) State.reset)
        = some (1, 4)
    ∧ ofNext (fun t => (t.laneAt 60, t.laneAt 63)) (served (wr (BitVec.ofNat 8 (0x20 + 4 * 15)) 0x04030201) State.reset)
        = some (1, 4) := by decide +kernel

/-- By2bExpandsBytes, ByteCodecLaws, BlenHoldsAnyFourBits: BLEN 0, 8, 9 and 15; canonical lanes at LLEN 8. -/
theorem test_witness_by2b_clauses : (bytesOf [] 0).blen.toNat ≤ 8 ∧ (bytesOf [] 8).blen.toNat ≤ 8 ∧ 8 < (bytesOf [] 9).blen.toNat
    ∧ 9 ≤ (bytesOf [] 15).blen.toNat
    ∧ ((lanesOf [1, 0, 1] 8).llen = 8 ∧ ∀ i, i < 8 → IsCanonicalLane ((lanesOf [1, 0, 1] 8).laneAt i)) := by
  unfold IsCanonicalLane; decide +kernel

/-- LookupTableIsBijection, ByteCodecLaws: a canonical pattern. -/
theorem test_witness_pattern : (List.replicate 8 (1 : Byte)).length = 8 ∧ ∀ e ∈ List.replicate 8 (1 : Byte), IsCanonicalLane e := by
  unfold IsCanonicalLane; decide

/-- IntegerRoundTrips: the unsigned bound and both ends of the signed range, at the narrowest and the widest width. -/
theorem test_witness_round_trips : (intOf 0).int.toNat < 2 ^ 0 ∧ (intOf 0xFFFFFFFFFFFFFFFF).int.toNat < 2 ^ 64
    ∧ (-2 ^ (1 - 1) ≤ (intOf 0xFFFFFFFFFFFFFFFF).int.toInt ∧ (intOf 0xFFFFFFFFFFFFFFFF).int.toInt < 2 ^ (1 - 1))
    ∧ (-2 ^ (64 - 1) ≤ (intOf 0x8000000000000000).int.toInt ∧ (intOf 0x8000000000000000).int.toInt < 2 ^ (64 - 1)) := by
  decide +kernel

/-- UnalignedOrNarrowAccessIsBusError: a narrow access, an unaligned one, and a served one. -/
theorem test_witness_access_forms : ¬ (Size.one = .four ∧ (0x60#8).toNat % 4 = 0) ∧ ¬ (Size.four = .four ∧ (0x62#8).toNat % 4 = 0)
    ∧ (Size.four = .four ∧ (0xFC#8).toNat % 4 = 0) := by decide

/-- ReservedOffsetsAndBits, AlignedAccessEffects: the ends of every range of offsets, and words that differ in reserved
bits only. -/
theorem test_witness_offsets : (0x64 ≤ (0x64#8).toNat ∧ (0x64#8).toNat % 4 = 0) ∧ (0x64 ≤ (0xFC#8).toNat ∧ (0xFC#8).toNat % 4 = 0)
    ∧ ((0x08#8).toNat % 4 = 0 ∧ 0x08 ≤ (0x08#8).toNat ∧ (0x08#8).toNat < 0x60)
    ∧ ((0x5C#8).toNat % 4 = 0 ∧ 0x08 ≤ (0x5C#8).toNat ∧ (0x5C#8).toNat < 0x60)
    ∧ ((0x60#8).toNat % 4 = 0 ∧ 0x60 ≤ (0x60#8).toNat)
    ∧ ((0x0C#8).toNat % 4 = 0 ∧ (0x0C#8 : Offset) ≠ 0x08#8
        ∧ step (State.reset.offer (rd 0x0C)) = .next (State.reset.respond (.read 0 false)))
    ∧ (∀ i, i < 32 → ¬ (3 ≤ i ∧ i ≤ 7 ∨ i = 15 ∨ 17 ≤ i) → (0xFFFE80F8#32).getLsbD i = (0#32).getLsbD i)
    ∧ (∀ i, i < 7 → (0xFFFFFF80#32).getLsbD i = (0#32).getLsbD i)
    ∧ (∀ i, i < 4 → (0xFFFFFFF0#32).getLsbD i = (0#32).getLsbD i) :=
  ⟨by decide, by decide, by decide, by decide, by decide, ⟨by decide, by decide, rfl⟩, by decide, by decide, by decide⟩

/-- IdIsConstant, StepKeepsInvariant: a state with the invariant that steps. -/
theorem test_witness_invariant_steps : State.reset.idReg = 0x42430701#32 ∧ Inv (State.reset.withFetchWord 32 0x501)
    ∧ ∃ t, step (State.reset.withFetchWord 32 0x501) = .next t :=
  ⟨rfl, ⟨rfl, by decide, by decide, by decide, by intro h; cases h⟩, _, rfl⟩

/-- LlenHoldsAnySevenBits, NoCommandReadsStatus: LLEN 65 and 127, and the commands that read it. -/
theorem test_witness_llen : 65 ≤ (lanesOf [] 65).llen.toNat ∧ 65 ≤ (lanesOf [] 127).llen.toNat
    ∧ (Instr.swp 8 = .b2i ∨ Instr.swp 8 = .b2is ∨ Instr.swp 8 = .b2by ∨ ∃ g, Instr.swp 8 = .swp g) :=
  ⟨by decide, by decide, .inr (.inr (.inr ⟨8, rfl⟩))⟩

/-- BaseSelectsTheWindow: the first address above the window. -/
theorem test_witness_outside_window :
    (memRead (Config.base + 256)).addr < Config.base ∨ Config.base + 256 ≤ (memRead (Config.base + 256)).addr :=
  .inr (Nat.le_refl _)

/-- OperandRangeExactlyOutOfRange: each row of R74's table. -/
theorem test_witness_outOfRange : OutOfRange (.i2b 65) State.reset ∧ OutOfRange (.swp 0) State.reset
    ∧ OutOfRange (.swp 1) (lanesOf [] 65) ∧ OutOfRange .b2i (lanesOf [] 65) ∧ OutOfRange .b2is (lanesOf [] 65)
    ∧ OutOfRange .b2by (lanesOf [] 65) ∧ OutOfRange .by2b (bytesOf [] 9) ∧ ¬ OutOfRange (.i2b 64) State.reset
    ∧ ¬ OutOfRange (.swp 127) (lanesOf [] 64) ∧ ¬ OutOfRange .by2b (bytesOf [] 8) := by
  unfold OutOfRange; decide

/-- ErrorsChangeOnlyStatus: a CMD write that ends in an error. -/
theorem test_witness_error : ofNext (fun t => decide (t.status.err ≠ 0)) (served (wr 0x00 0) State.reset) = some true := by
  decide +kernel

/-- PermissiveCasesAreNoErrors: another lane buffer, the same below LLEN. -/
theorem test_witness_lanes_beyond : ∀ j, j < (lanesOf [1, 0] 2).llen.toNat →
    ({ lanesOf [1, 0] 2 with lane := (lanesOf [1, 0, 0x77] 2).lane } : State).laneAt j = (lanesOf [1, 0] 2).laneAt j := by
  decide +kernel

/-- StatusChangesOnlyBy: an event that changes ERR, and one that clears ERRSEEN. -/
theorem test_witness_status_changes : State.reset.status.errSeen = false
    ∧ ofNext (fun t => (t.status.err, t.status.errSeen)) (served (wr 0x00 0) State.reset) = some (4, true)
    ∧ ofNext (fun t => t.status.errSeen) (served (wr 0x04 0x00010000) { State.reset with status := ⟨4, 0, true⟩ })
        = some false := by decide +kernel

/-- ResetGivesEveryRegisterItsValue, AccessDuringResetHasNoStep: a state in reset, and the refusal of an access there. -/
theorem test_witness_inReset : ({ State.reset with inReset := true } : State).inReset = true
    ∧ step (({ State.reset with inReset := true } : State).offer (rd 0x60)) = .refused .accessDuringReset := ⟨rfl, rfl⟩

/-- CommandsReadAndWriteTheirRow: two different states that agree on what B2I reads. -/
theorem test_witness_sameReads : SameReads .b2i (lanesOf [1, 0] 2) { lanesOf [1, 0, 0x77] 2 with int := 5 }
    ∧ lanesOf [1, 0] 2 ≠ { lanesOf [1, 0, 0x77] 2 with int := 5 }
    ∧ (∃ t, exec .b2i (lanesOf [1, 0] 2) = .next t) ∧ ∃ t, exec .b2i { lanesOf [1, 0, 0x77] 2 with int := 5 } = .next t :=
  ⟨⟨by decide, by decide⟩, by decide +kernel, ⟨_, rfl⟩, _, rfl⟩

/-- DisciplinedHostNeverStopsTheUnit: a host that resets the unit and then uses it. -/
theorem test_witness_disciplined :
    Disciplined false [rd 0x60, .assertReset, .assertReset, .releaseReset, wr 0x00 0x00000501, .releaseReset] := by
  unfold rd wr; simp [Disciplined]

end Sys2Proof.Tests
end

section
/-! PROOFS of the statements of 10_state.md. One idea carries the four that speak of commands: a command first looks
whether it raises an error (`commandError`), and only where it raises none are its registers written
(`commandWrites`). Both are functions of the registers of its row of R24's table, so what a command depends on is read
off them. -/

namespace Sys2Proof.Machine

/-! ## A command as its error check and its writes -/

/-- The error B2I and B2I.S raise, with its index (40_int_bits.md R57, R60). -/
def bitsError (s : State) : Option (ErrorKind × Nat) :=
  if s.llen.toNat > 64 then some (.operandRange, 0)
  else (firstOffending (fun e => (norm e).isSome) s.sequence).map fun k => (.invalidBitValue, k)

/-- The error B2BY raises, with its index (42_byte_codec.md R67). -/
def groupsError (s : State) : Option (ErrorKind × Nat) :=
  if s.llen.toNat > 64 then some (.operandRange, 0)
  else if s.llen.toNat % 8 ≠ 0 then some (.malformedLength, 0)
  else (firstOffending isCanonical s.sequence).map fun k => (.invalidBitPattern, k)

/-- The error a command raises in a state, with its index, and none where it succeeds (60_exceptions.md R69). -/
def commandError : Instr → State → Option (ErrorKind × Nat)
  | .i2b w, _ => if w > 64 then some (.operandRange, 0) else none
  | .b2i, s => bitsError s
  | .b2is, s => bitsError s
  | .swp g, s => if g = 0 ∨ s.llen.toNat > 64 then some (.operandRange, 0) else none
  | .by2b, s => if s.blen.toNat > 8 then some (.operandRange, 0) else none
  | .b2by, s => groupsError s

/-- The state with the registers a successful command writes, STATUS left out (10_state.md R24). -/
def commandWrites : Instr → State → State
  | .i2b w, s => s.setSequence w (truncatedLane s.int w)
  | .b2i, s => { s with int := BitVec.ofNat 64 (unsignedValue (s.sequence.filterMap norm)) }
  | .b2is, s => { s with int := BitVec.ofInt 64 (signedValue (s.sequence.filterMap norm)) }
  | .swp g, s => s.setLanes fun i => (swapRuns g s.sequence).getD i (s.laneAt i)
  | .by2b, s => s.setSequence (8 * s.blen.toNat) fun j => (s.byteSequence.flatMap expand).getD j 0x00#8
  | .b2by, s => { s.setBytes (reducedByte s.sequence) with blen := BitVec.ofNat 4 (s.llen.toNat / 8) }

theorem convertBits_of_bitsError {s : State} {e : ErrorKind} {k : Nat} (value : List Bool → DWord)
    (h : bitsError s = some (e, k)) : s.convertBits value = s.raise e k := by
  unfold bitsError at h
  split at h
  next hl => cases h; exact convertBits_range s value hl
  next hl =>
    obtain ⟨j, hj, he⟩ := Option.map_eq_some_iff.mp h
    cases he
    simp [State.convertBits, hl, hj]

theorem convertBits_of_no_bitsError {s : State} (value : List Bool → DWord) (h : bitsError s = none) :
    s.convertBits value = ({ s with int := value (s.sequence.filterMap norm) } : State).succeed := by
  unfold bitsError at h
  split at h
  next => cases h
  next hl => simp [State.convertBits, hl, Option.map_eq_none_iff.mp h]

theorem execB2by_of_groupsError {s : State} {e : ErrorKind} {k : Nat} (h : groupsError s = some (e, k)) :
    execB2by s = .next (s.raise e k) := by
  unfold groupsError at h
  split at h
  next hl => cases h; exact exec_b2by_range s hl
  next hl =>
    split at h
    next h8 => cases h; exact exec_b2by_length s (Nat.not_lt.mp hl) h8
    next h8 =>
      obtain ⟨j, hj, he⟩ := Option.map_eq_some_iff.mp h
      cases he
      simp [execB2by, hl, Decidable.not_not.mp h8, hj]

theorem execB2by_of_no_groupsError {s : State} (h : groupsError s = none) :
    execB2by s = .next (commandWrites .b2by s).succeed := by
  unfold groupsError at h
  split at h
  next => cases h
  next hl =>
    split at h
    next => cases h
    next h8 => simp [execB2by, commandWrites, hl, Decidable.not_not.mp h8, Option.map_eq_none_iff.mp h]

/-- A count outside the hardware's range is the first thing every command refuses (60_exceptions.md R74). -/
theorem commandError_of_outOfRange {i : Instr} {s : State} (h : OutOfRange i s) :
    commandError i s = some (.operandRange, 0) := by
  cases i <;> exact if_pos h

theorem not_outOfRange_of_no_error {i : Instr} {s : State} (h : commandError i s = none) : ¬ OutOfRange i s := by
  intro hr
  rw [commandError_of_outOfRange hr] at h
  cases h

/-- A command that finds an error raises it and writes nothing else (60_exceptions.md R76, R77). -/
theorem exec_of_error {i : Instr} {s : State} {e : ErrorKind} {k : Nat} (h : commandError i s = some (e, k)) :
    exec i s = .next (s.raise e k) := by
  cases i with
  | i2b w =>
    obtain ⟨hw, he⟩ := Option.ite_none_right_eq_some.mp h
    cases he; exact exec_i2b_range s hw
  | b2i => exact congrArg Host.Outcome.next (convertBits_of_bitsError _ h)
  | b2is => exact congrArg Host.Outcome.next (convertBits_of_bitsError _ h)
  | swp g =>
    obtain ⟨hg, he⟩ := Option.ite_none_right_eq_some.mp h
    cases he; exact exec_swp_range s hg
  | by2b =>
    obtain ⟨hb, he⟩ := Option.ite_none_right_eq_some.mp h
    cases he; exact exec_by2b_range s hb
  | b2by => exact execB2by_of_groupsError h

/-- A command that finds no error writes its registers and succeeds (60_exceptions.md R76). -/
theorem exec_of_no_error {i : Instr} {s : State} (h : commandError i s = none) :
    exec i s = .next (commandWrites i s).succeed := by
  have hr : ¬ OutOfRange i s := not_outOfRange_of_no_error h
  cases i with
  | i2b w => exact exec_i2b_ok s (Nat.not_lt.mp hr)
  | b2i => exact congrArg Host.Outcome.next (convertBits_of_no_bitsError _ h)
  | b2is => exact congrArg Host.Outcome.next (convertBits_of_no_bitsError _ h)
  | swp g =>
    obtain ⟨hg, hl⟩ := not_or.mp hr
    exact exec_swp_ok s (Nat.one_le_iff_ne_zero.mpr hg) (Nat.not_lt.mp hl)
  | by2b => exact exec_by2b_ok s (Nat.not_lt.mp hr)
  | b2by => exact execB2by_of_no_groupsError h

theorem exec_outOfRange {i : Instr} {s : State} (h : OutOfRange i s) : exec i s = .next (s.raise .operandRange 0) :=
  exec_of_error (commandError_of_outOfRange h)

theorem errorCode_ne_zero (e : ErrorKind) : errorCode e ≠ 0 := by
  cases e <;> decide

/-! ## What a command writes, and what it depends on -/

/-- The frame of a command's two endings (10_state.md R24, 60_exceptions.md R77). -/
theorem Ending.frame {i : Instr} {s t : State} (h : Ending i s t) :
    (t.status.err = 0 → WritesOnly i s t) ∧ (t.status.err ≠ 0 → OnlyStatus s t) := by
  cases h with
  | error e k ht _ =>
    subst ht
    exact ⟨fun h0 => absurd h0 (errorCode_ne_zero e), fun _ => rfl⟩
  | success hs hw _ => exact ⟨fun _ => hw, fun hne => absurd (congrArg Status.err hs) hne⟩

theorem bitsError_congr {s s' : State} (h : SameSequence s s') : bitsError s = bitsError s' := by
  obtain ⟨hl, hs⟩ := h
  rw [bitsError, bitsError, hl, hs]

theorem groupsError_congr {s s' : State} (h : SameSequence s s') : groupsError s = groupsError s' := by
  obtain ⟨hl, hs⟩ := h
  rw [groupsError, groupsError, hl, hs]

/-- Which error a command raises depends only on what its row reads (10_state.md R24). -/
theorem commandError_congr {i : Instr} {s s' : State} (h : SameReads i s s') : commandError i s = commandError i s' := by
  cases i with
  | i2b w => rfl
  | b2i => exact bitsError_congr h
  | b2is => exact bitsError_congr h
  | swp g => rw [commandError, commandError, h.1]
  | by2b => rw [commandError, commandError, h.1]
  | b2by => exact groupsError_congr h

/-- What a successful command writes depends only on what its row reads (10_state.md R24). -/
theorem commandWrites_congr {i : Instr} {s s' : State} (h : SameReads i s s') (hr : ¬ OutOfRange i s) :
    SameWrites i (commandWrites i s).succeed (commandWrites i s').succeed := by
  cases i with
  | i2b w => exact ⟨congrArg (fun v => bufferOf 64 (truncatedLane v w)) h, rfl⟩
  | b2i => exact congrArg (fun q => BitVec.ofNat 64 (unsignedValue (q.filterMap norm))) h.2
  | b2is => exact congrArg (fun q => BitVec.ofInt 64 (signedValue (q.filterMap norm))) h.2
  | swp g =>
    obtain ⟨hl, hs⟩ := h
    obtain ⟨hg, hr⟩ := not_or.mp hr
    have hg : 1 ≤ g := Nat.one_le_iff_ne_zero.mpr hg
    have hr : s.llen.toNat ≤ 64 := Nat.not_lt.mp hr
    calc (afterSwp g s).sequence = swapRuns g s.sequence := afterSwp_sequence s hg hr
      _ = swapRuns g s'.sequence := by rw [hs]
      _ = (afterSwp g s').sequence := (afterSwp_sequence s' hg (hl ▸ hr)).symm
  | by2b =>
    obtain ⟨hb, hs⟩ := h
    constructor <;> simp [commandWrites, hb, hs]
  | b2by =>
    obtain ⟨hl, hs⟩ := h
    constructor <;> simp [commandWrites, hl, hs]

/-- A command of two states that agree on what it reads raises one error in both or succeeds in both, and then writes
the same (10_state.md R24). -/
theorem exec_congr {i : Instr} {s s' t t' : State} (h : SameReads i s s') (ht : exec i s = .next t)
    (ht' : exec i s' = .next t') : t.status.err = t'.status.err ∧ t.status.errIdx = t'.status.errIdx
      ∧ (t.status.err = 0 → SameWrites i t t') := by
  have he := commandError_congr h
  cases hc : commandError i s with
  | some p =>
    obtain ⟨e, k⟩ := p
    rw [exec_of_error hc] at ht
    rw [exec_of_error (he ▸ hc)] at ht'
    cases ht; cases ht'
    exact ⟨rfl, rfl, fun h0 => absurd h0 (errorCode_ne_zero e)⟩
  | none =>
    rw [exec_of_no_error hc] at ht
    rw [exec_of_no_error (he ▸ hc)] at ht'
    cases ht; cases ht'
    exact ⟨rfl, rfl, fun _ => commandWrites_congr h (not_outOfRange_of_no_error hc)⟩

/-! ## STATUS and BLEN as they were before a command -/

/-- No command looks at STATUS before it writes (10_state.md R25). -/
theorem commandError_status (i : Instr) (s : State) (st : Status) :
    commandError i { s with status := st } = commandError i s := by
  cases i <;> rfl

theorem commandWrites_status (i : Instr) (s : State) (st : Status) :
    commandWrites i { s with status := st } = { commandWrites i s with status := st } := by
  cases i <;> rfl

/-- No command but BY2B looks at BLEN before it writes (10_state.md R18). -/
theorem commandError_blen {i : Instr} (hi : i ≠ .by2b) (s : State) (b : BitVec 4) :
    commandError i { s with blen := b } = commandError i s := by
  cases i with
  | by2b => exact absurd rfl hi
  | _ => rfl

theorem commandWrites_blen {i : Instr} (hi : i ≠ .by2b) (s : State) (b : BitVec 4) :
    commandWrites i { s with blen := b }
      = { commandWrites i s with blen := (commandWrites i { s with blen := b }).blen } := by
  cases i with
  | by2b => exact absurd rfl hi
  | _ => rfl

/-- Two runs of a command other than BY2B that start with different BLEN end alike but for BLEN (10_state.md R18). -/
theorem exec_blen {i : Instr} (hi : i ≠ .by2b) (s : State) (b : BitVec 4) :
    ∃ t u : State, exec i s = .next t ∧ exec i { s with blen := b } = .next u ∧ t.status = u.status
      ∧ u = { t with blen := u.blen } := by
  have he := commandError_blen hi s b
  cases hc : commandError i s with
  | some p => exact ⟨_, _, exec_of_error hc, exec_of_error (he.trans hc), rfl, rfl⟩
  | none =>
    have hu := exec_of_no_error (he.trans hc)
    rw [commandWrites_blen hi] at hu
    exact ⟨_, _, exec_of_no_error hc, hu, rfl, rfl⟩

/-- A successful B2BY leaves LLEN/8, at most B_MAX (10_state.md R18). -/
theorem exec_b2by_blen (s : State) : ∃ t : State, exec .b2by s = .next t
    ∧ (t.status.err = 0 → t.blen.toNat = s.llen.toNat / 8 ∧ t.blen.toNat ≤ 8) := by
  cases hc : commandError .b2by s with
  | some p => exact ⟨_, exec_of_error hc, fun h0 => absurd h0 (errorCode_ne_zero p.1)⟩
  | none =>
    have hl : s.llen.toNat ≤ 64 := Nat.not_lt.mp (not_outOfRange_of_no_error hc)
    have hb : (afterB2by s).blen.toNat = s.llen.toNat / 8 := afterB2by_blen s hl
    exact ⟨_, exec_of_no_error hc, fun _ => ⟨hb, hb.trans_le (by omega)⟩⟩

/-! ## Reading LLEN, BLEN and ID -/

theorem readReg_llen_toNat (s : State) : (s.readReg .llen).toNat = s.llen.toNat :=
  BitVec.toNat_setWidth_of_le (by omega)

theorem readReg_blen_toNat (s : State) : (s.readReg .blen).toNat = s.blen.toNat :=
  BitVec.toNat_setWidth_of_le (by omega)

/-- A step leaves ID at its constant, reset included (10_state.md R20). -/
theorem step_keeps_ident {s t : State} (hs : s.idReg = 0x42430701#32) (h : step s = .next t) :
    t.idReg = 0x42430701#32 := by
  cases step_cases h with
  | idle _ => exact hs
  | access u a v r _ ha => exact ha.sameEnv.ident.trans hs
  | assertReset u => rfl
  | releaseReset u _ => rfl
  | releaseIdle u _ => exact hs

/-! ## The obligations -/

/-- Settles O27: every case of a step keeps ID or resets it to the constant, and the port's rules at offset 0x60. -/
theorem idIsConstant : Obligations.IdIsConstant := by
  refine ⟨by decide, by decide, by decide, rfl, fun s hs => ⟨fun t => step_keeps_ident hs, fun h => ⟨?_, fun v =>
    step_wr s v h (by decide) (by decide)⟩⟩⟩
  have hread : s.readReg (regAt 0x60) = 0x42430701#32 := hs
  exact (step_rd s h (by decide)).trans (by rw [hread])

/-- Settles O28: the port's rules at offset 0x10, the range check that comes first in every reader of LLEN, and the
lengths I2B and BY2B leave. -/
theorem llenHoldsAnySevenBits : Obligations.LlenHoldsAnySevenBits := by
  refine ⟨rfl, fun s v h => ⟨⟨_, step_wr s v h (by decide) (by decide), rfl⟩, _, step_rd s h (by decide),
      readReg_llen_toNat s⟩,
    fun s i hi hl => ?_, fun s w hw => ⟨_, exec_i2b_eq s hw, afterI2b_llen s hw⟩, fun s hb => ?_⟩
  · have hr : OutOfRange i s := by
      obtain rfl | rfl | rfl | ⟨g, rfl⟩ := hi
      · exact hl
      · exact hl
      · exact hl
      · exact .inr hl
    exact ⟨_, exec_outOfRange hr, rfl⟩
  · have hlen := afterBy2b_llen s hb
    exact ⟨_, exec_by2b_eq s hb, hlen, by omega⟩

/-- Settles O29: the port's rules at offset 0x14, BY2B's range check, and that no other command looks at BLEN. -/
theorem blenHoldsAnyFourBits : Obligations.BlenHoldsAnyFourBits := by
  refine ⟨rfl, fun s v h => ⟨⟨_, step_wr s v h (by decide) (by decide), rfl⟩, _, step_rd s h (by decide),
      readReg_blen_toNat s⟩,
    fun s hb => ⟨_, exec_by2b_range s hb, rfl⟩, fun s hb => ⟨_, exec_by2b_eq s hb, rfl⟩,
    fun s i b hi => exec_blen hi s b, exec_b2by_blen⟩

/-- Settles O42: the frame is that of the two endings, and the dependence that of the error check and the writes. -/
theorem commandsReadAndWriteTheirRow : Obligations.CommandsReadAndWriteTheirRow := by
  refine ⟨fun i s => ?_, fun i s s' t t' => exec_congr⟩
  obtain ⟨t, ht, he⟩ := exec_ending s i
  exact ⟨t, ht, he.frame⟩

/-- Settles O43: neither the error check nor the writes look at STATUS. -/
theorem noCommandReadsStatus : Obligations.NoCommandReadsStatus := by
  intro i s st
  have he := commandError_status i s st
  cases hc : commandError i s with
  | some p => exact ⟨_, _, exec_of_error hc, exec_of_error (he.trans hc), rfl, rfl, rfl⟩
  | none =>
    have hu := exec_of_no_error (he.trans hc)
    rw [commandWrites_status] at hu
    exact ⟨_, _, exec_of_no_error hc, hu, rfl, rfl, rfl⟩

end Sys2Proof.Machine
end

section
/-! PROOFS of the statements of 20_memory.md. The rules of the port (`step_rd`, `step_wr`, `step_cmd_ok`,
`step_busError`) turn an access into a read or a write of one register; what is left is where each register stands in
the window and which part of the state its word is. -/

namespace Sys2Proof.Machine

/-! ## Where the registers stand (20_memory.md R28) -/

theorem laneOffset_toNat {k : Nat} (h : k < 16) : (BitVec.ofNat 8 (0x20 + 4 * k)).toNat = 0x20 + 4 * k := by
  rw [BitVec.toNat_ofNat, Nat.mod_eq_of_lt (by omega)]

theorem laneOffset_aligned {k : Nat} (h : k < 16) : (BitVec.ofNat 8 (0x20 + 4 * k)).toNat % 4 = 0 := by
  rw [laneOffset_toNat h]; omega

theorem laneOffset_ne {k : Nat} (h : k < 16) {off : Offset} (ho : off.toNat < 0x20) :
    BitVec.ofNat 8 (0x20 + 4 * k) ≠ off := by
  rintro rfl
  rw [laneOffset_toNat h] at ho; omega

theorem regAt_eq_reserved_iff {off : Offset} (ha : off.toNat % 4 = 0) :
    regAt off = .reserved ↔ 0x60 < off.toNat := by
  unfold regAt
  split
  case h_10 =>
    split
    · simp only [reduceCtorEq, false_iff]; omega
    · simp only [true_iff]; grind
  all_goals simp only [reduceCtorEq, false_iff]; omega

/-- The offsets of the data registers. -/
theorem dataOffset_cases {off : Offset} (ha : off.toNat % 4 = 0) (hlo : 0x08 ≤ off.toNat) (hhi : off.toNat < 0x60) :
    off = 0x08#8 ∨ off = 0x0C#8 ∨ off = 0x10#8 ∨ off = 0x14#8 ∨ off = 0x18#8 ∨ off = 0x1C#8
      ∨ ∃ k, k < 16 ∧ off = BitVec.ofNat 8 (0x20 + 4 * k) := by
  by_cases hl : 0x20 ≤ off.toNat
  · have hk : (off.toNat - 0x20) / 4 < 16 := by omega
    refine .inr <| .inr <| .inr <| .inr <| .inr <| .inr ⟨_, hk, BitVec.eq_of_toNat_eq ?_⟩
    rw [laneOffset_toNat hk]; omega
  · simp only [← BitVec.toNat_inj, BitVec.toNat_ofNat]
    omega

/-! ## The bytes and lanes a write stores (20_memory.md R33, R34) -/

theorem byteAt_writeReg_bytesLo (s : State) (v : Word) {k : Nat} (h : k < 8) :
    (s.writeReg .bytesLo v).byteAt k = if k < 4 then wordByte v k else s.byteAt k := s.byteAt_setBytes _ h

theorem byteAt_writeReg_bytesHi (s : State) (v : Word) {k : Nat} (h : k < 8) :
    (s.writeReg .bytesHi v).byteAt k = if k < 4 then s.byteAt k else wordByte v (k - 4) := s.byteAt_setBytes _ h

theorem laneAt_writeReg_laneW (s : State) (k : Nat) (v : Word) {i : Nat} (h : i < 64) :
    (s.writeReg (.laneW k) v).laneAt i = if i / 4 = k then wordByte v (i % 4) else s.laneAt i := s.laneAt_setLanes _ h

/-! ## Reads and writes of the window (20_memory.md R30, R31) -/

/-- What the port has answered before does not show in a read. -/
theorem readReg_responses (s : State) (rs : List Response) (r : Reg) :
    ({ s with responses := rs } : State).readReg r = s.readReg r := by cases r <;> rfl

theorem respond_injective {s : State} {r r' : Response} (h : s.respond r = s.respond r') : r = r' := by
  simpa using congrArg State.responses h

/-- An aligned read can answer with one value only. -/
theorem readReg_of_step_rd {s : State} {off : Offset} {u : Word} (h : s.inReset = false) (ha : off.toNat % 4 = 0)
    (hs : step (s.offer (rd off)) = .next (s.respond (.read u false))) : s.readReg (regAt off) = u := by
  rw [step_rd s h ha] at hs
  injection hs with hs
  injection respond_injective hs

/-- ID and the reserved offsets ignore writes. -/
theorem writeReg_from_ident (s : State) {off : Offset} (v : Word) (ha : off.toNat % 4 = 0) (h : 0x60 ≤ off.toNat) :
    s.writeReg (regAt off) v = s := by
  obtain hid | hres := Nat.eq_or_lt_of_le h
  · obtain rfl : off = 0x60#8 := BitVec.eq_of_toNat_eq hid.symm
    rfl
  · rw [(regAt_eq_reserved_iff ha).mpr hres]; rfl

theorem step_wr_from_ident {s : State} {off : Offset} (v : Word) (h : s.inReset = false) (ha : off.toNat % 4 = 0)
    (ho : 0x60 ≤ off.toNat) : step (s.offer (wr off v)) = .next (s.respond (.write false)) := by
  have hc : off ≠ 0x00#8 := by rintro rfl; simp at ho
  rw [step_wr s v h ha hc, writeReg_from_ident s v ha ho]

/-- The word a data register gives back after a write of v: LLEN and BLEN cut it to their width. -/
theorem readReg_writeReg_regAt (s : State) {off : Offset} (v : Word) (ha : off.toNat % 4 = 0) (hlo : 0x08 ≤ off.toNat)
    (hhi : off.toNat < 0x60) : (s.writeReg (regAt off) v).readReg (regAt off) =
      if off = 0x10 then v &&& 0x0000007F#32 else if off = 0x14 then v &&& 0x0000000F#32 else v := by
  obtain ⟨hil, hih, hll, hbl, hyl, hyh, hlane⟩ := readReg_writeReg_self s v
  obtain rfl | rfl | rfl | rfl | rfl | rfl | ⟨k, hk, rfl⟩ := dataOffset_cases ha hlo hhi
  · exact hil
  · exact hih
  · exact hll
  · exact hbl
  · exact hyl
  · exact hyh
  · rw [if_neg (laneOffset_ne hk (by decide)), if_neg (laneOffset_ne hk (by decide)), regAt_laneW hk]
    exact hlane k hk

/-- A write to a data register (20_memory.md R31): STATUS is kept, the word is read back, and no other offset shows
it. -/
theorem step_wr_dataRegister {s : State} {off : Offset} (v : Word) (h : s.inReset = false) (ha : off.toNat % 4 = 0)
    (hlo : 0x08 ≤ off.toNat) (hhi : off.toNat < 0x60) :
    ∃ t : State, step (s.offer (wr off v)) = .next (t.respond (.write false)) ∧ t.status = s.status
      ∧ step (t.offer (rd off)) = .next (t.respond (.read
          (if off = 0x10 then v &&& 0x0000007F#32 else if off = 0x14 then v &&& 0x0000000F#32 else v) false))
      ∧ ∀ (off' : Offset) (u : Word), off'.toNat % 4 = 0 → off' ≠ off →
        step (s.offer (rd off')) = .next (s.respond (.read u false)) →
        step (t.offer (rd off')) = .next (t.respond (.read u false)) := by
  have hc : off ≠ 0x00#8 := by rintro rfl; simp at hlo
  have hst : regAt off ≠ .status := by
    rw [ne_eq, regAt_eq_status_iff ha]; rintro rfl; simp at hlo
  have hres : regAt off ≠ .reserved := by rw [ne_eq, regAt_eq_reserved_iff ha]; omega
  have ht : (s.writeReg (regAt off) v).inReset = false := (writeReg_sameEnv s _ v).inReset.trans h
  refine ⟨s.writeReg (regAt off) v, step_wr s v h ha hc, writeReg_status v hst, ?_, fun off' u ha' hne hu => ?_⟩
  · rw [step_rd _ ht ha, readReg_writeReg_regAt s v ha hlo hhi]
  · have hreg : regAt off' ≠ regAt off := fun he => hne (regAt_injective hres ha ha' he)
    rw [step_rd _ ht ha', readReg_writeReg_of_ne s v hreg hst fun _ => regAt_laneW_lt, readReg_of_step_rd h ha' hu]

/-! ## Reserved bits (20_memory.md R30) -/

theorem statusWord_reserved (st : Status) {i : Nat} (hi : i < 32) (h : 3 ≤ i ∧ i ≤ 7 ∨ i = 15 ∨ 17 ≤ i) :
    (statusWord st).getLsbD i = false := by
  have hseen : i ≠ 16 := by omega
  have hidx : (decide (8 ≤ i) && st.errIdx.getLsbD (i - 8)) = false := by
    by_cases h8 : 8 ≤ i
    · rw [BitVec.getLsbD_of_ge st.errIdx _ (by omega), Bool.and_false]
    · simp [h8]
  rw [statusWord_getLsbD st i hi, hidx, BitVec.getLsbD_of_ge st.err _ (by omega)]
  simp [hseen]

theorem getLsbD_setWidth_of_ge {n : Nat} (x : BitVec n) {i : Nat} (h : n ≤ i) : (x.setWidth 32).getLsbD i = false := by
  rw [BitVec.getLsbD_setWidth, BitVec.getLsbD_of_ge x i h, Bool.and_false]

/-- The low n bits of a word are all its low field shows. -/
theorem extractLsb'_low_congr {n : Nat} {v u : Word} (h : ∀ i, i < n → v.getLsbD i = u.getLsbD i) :
    v.extractLsb' 0 n = u.extractLsb' 0 n := by
  apply BitVec.eq_of_getLsbD_eq; intro i hi
  simpa [hi] using h i hi

theorem statusHostWrite_eq (v : Word) (st : Status) :
    statusHostWrite v st = ⟨st.err, st.errIdx, st.errSeen && !v.getLsbD 16⟩ := by
  unfold statusHostWrite
  cases v.getLsbD 16 <;> simp

/-! ## The obligations -/

/-- Settles O20: INT_LO and INT_HI are the two halves of INT, and each write joins its word to the other half. -/
theorem intIsTwoWords : Obligations.IntIsTwoWords := fun s v h =>
  ⟨⟨_, step_wr s v h (by decide) (by decide), rfl, extractLsb'_append_low _ _, extractLsb'_append_high _ _⟩,
    ⟨_, step_wr s v h (by decide) (by decide), rfl, extractLsb'_append_high _ _, extractLsb'_append_low _ _⟩,
    step_rd s h (by decide), step_rd s h (by decide)⟩

/-- Settles O21: a write sets its four bytes from the word and keeps the other four. -/
theorem bytesArePackedLittleEndian : Obligations.BytesArePackedLittleEndian := by
  intro s v h
  refine ⟨⟨s.writeReg .bytesLo v, step_wr s v h (by decide) (by decide), rfl, fun j hj => ⟨?_, ?_⟩⟩,
    ⟨s.writeReg .bytesHi v, step_wr s v h (by decide) (by decide), rfl, fun j hj => ⟨?_, ?_⟩⟩,
    step_rd s h (by decide), step_rd s h (by decide)⟩
  · rw [byteAt_writeReg_bytesLo s v (by omega), if_pos hj]; rfl
  · rw [byteAt_writeReg_bytesLo s v (by omega), if_neg (by omega)]
  · rw [byteAt_writeReg_bytesHi s v (by omega), if_neg (by omega), Nat.add_sub_cancel_left]; rfl
  · rw [byteAt_writeReg_bytesHi s v (by omega), if_pos hj]

/-- Settles O22: lane i belongs to the word i / 4, as its byte i % 4. -/
theorem lanesArePackedLittleEndian : Obligations.LanesArePackedLittleEndian := by
  intro s v k h hk
  have ha := laneOffset_aligned hk
  have hwr := step_wr s v h ha (laneOffset_ne hk (by decide))
  have hrd := step_rd s h ha
  rw [regAt_laneW hk] at hwr hrd
  refine ⟨⟨_, hwr, rfl, fun j hj => ?_, fun i hi hne => ?_⟩, hrd⟩
  · have hdiv : (4 * k + j) / 4 = k := by omega
    have hmod : (4 * k + j) % 4 = j := by omega
    rw [laneAt_writeReg_laneW s k v (by omega), if_pos hdiv, hmod]; rfl
  · rw [laneAt_writeReg_laneW s k v hi, if_neg hne]

/-- Settles O23: an access is either not served, and then answered by a bus error, or it is a read, a write of CMD or
a write of another register, and each of these is answered without one. -/
theorem unalignedOrNarrowAccessIsBusError : Obligations.UnalignedOrNarrowAccessIsBusError := by
  intro s a h
  refine ⟨fun hn => ?_, fun hs => ?_⟩
  · have hstep := step_busError s h (Bool.eq_false_iff.mpr fun hs => hn (a.served_iff.mp hs))
    exact ⟨fun hop => by rw [hstep, hop]; rfl, fun v hop => by rw [hstep, hop]; rfl⟩
  · obtain ⟨off, size, op⟩ := a
    obtain ⟨rfl, ha⟩ := hs
    cases op with
    | read => exact ⟨s, .inr ⟨_, step_rd s h ha⟩⟩
    | write v =>
      by_cases hc : off = 0x00#8
      · subst hc
        obtain ⟨t, ht, -⟩ := step_cmd s v h
        exact ⟨t, .inl ht⟩
      · exact ⟨_, .inl (step_wr s v h ha hc)⟩

/-- Settles O24: a write stores only the defined bits of its word, and the word a read returns has no others. -/
theorem reservedOffsetsAndBits : Obligations.ReservedOffsetsAndBits := by
  intro s h
  refine ⟨fun off v ho ha => ⟨?_, step_wr_from_ident v h ha (by omega)⟩,
    ⟨_, step_rd s h (by decide), fun i hi hr => statusWord_reserved s.status hi hr⟩,
    ⟨_, step_rd s h (by decide), fun i hi => getLsbD_setWidth_of_ge s.llen hi⟩,
    ⟨_, step_rd s h (by decide), fun i hi => getLsbD_setWidth_of_ge s.blen hi⟩,
    fun v u => ⟨fun hvu => ?_, fun hvu => ?_, fun hvu => ?_⟩⟩
  · rw [step_rd s h ha, (regAt_eq_reserved_iff ha).mpr (by omega)]; rfl
  all_goals
    rw [step_wr s v h (by decide) (by decide), step_wr s u h (by decide) (by decide)]
    congr 2
  · have hw : statusHostWrite v s.status = statusHostWrite u s.status := by
      rw [statusHostWrite_eq, statusHostWrite_eq, hvu 16 (by omega) (by omega)]
    exact congrArg (fun st => ({ s with status := st } : State)) hw
  · exact congrArg (fun n => ({ s with llen := n } : State)) (extractLsb'_low_congr hvu)
  · exact congrArg (fun n => ({ s with blen := n } : State)) (extractLsb'_low_congr hvu)

/-- Settles O25: one rule of the port per kind of access. -/
theorem alignedAccessEffects : Obligations.AlignedAccessEffects := by
  intro s h
  refine ⟨fun off ha => ⟨_, step_rd s h ha, fun rs => ?_⟩, fun off v ha hlo hhi => step_wr_dataRegister v h ha hlo hhi,
    fun v => ?_, fun off v ha ho => step_wr_from_ident v h ha ho, fun c i t hd ht => ?_,
    fun c why hd => step_cmd_error s h hd⟩
  · rw [step_rd _ (by exact h) ha, readReg_responses]
  · rw [← statusHostWrite_eq]
    exact step_wr s v h (by decide) (by decide)
  · exact (step_cmd_ok s h hd).trans (by rw [ht]; rfl)

end Sys2Proof.Machine
end

section
/-! PROOFS of the statements of 30_encoding.md. The decoder and the opcode map are compared through the fields of the
word: `decode_eq_ok_iff_hasFields` says which fields a word of a command has, `selects_iff_hasFields` which fields its row
fixes, and the two differ by the count alone (`decode_eq_ok_iff`). The pseudo-instructions are the commands' own spec
lemmas, run one after the other. -/

namespace Sys2Proof.Machine

/-! ## The fields of a command (30_encoding.md R47 to R50) -/

/-- OP of a command (30_encoding.md R48). -/
def opNumber : Instr → BitVec 4
  | .i2b _ => 1
  | .b2i => 2
  | .b2is => 2
  | .swp _ => 3
  | .by2b => 4
  | .b2by => 5

/-- S of a command (30_encoding.md R50). -/
def signBit : Instr → Bool
  | .b2is => true
  | _ => false

/-- N of a command, 0 where it uses none (30_encoding.md R49). -/
def countOf : Instr → Nat
  | .i2b w => w
  | .swp g => g
  | _ => 0

/-- 30_encoding.md R48's operation codes are 1 to 5. -/
theorem opNumber_toNat_mem (i : Instr) : (opNumber i).toNat ∈ [1, 2, 3, 4, 5] := by cases i <;> simp [opNumber]

/-- The command with its count, if it uses one, replaced by n (30_encoding.md R49). -/
def withCount (n : Nat) : Instr → Instr
  | .i2b _ => .i2b n
  | .swp _ => .swp n
  | i => i

@[simp] theorem opcodeRow_withCount (n : Nat) (i : Instr) : opcodeRow (withCount n i) = opcodeRow i := by cases i <;> rfl

/-- A word is a command: the reserved fields are 0 and the others are the command's (30_encoding.md R47 to R50). -/
def HasFields (c : Word) (i : Instr) : Prop :=
  resHField c = 0 ∧ resLField c = 0 ∧ sField c = signBit i ∧ opField c = opNumber i ∧ (nField c).toNat = countOf i

/-! ## The decoder by its fields (30_encoding.md R46, R51) -/

theorem decodePlain_eq_ok_iff {c : Word} {i j : Instr} :
    decodePlain c i = .ok j ↔ sField c = false ∧ nField c = 0 ∧ i = j := by
  unfold decodePlain
  split
  · simp_all
  · split <;> simp_all

theorem decodeCount_eq_ok_iff {c : Word} {mk : Nat → Instr} {j : Instr} :
    decodeCount c mk = .ok j ↔ sField c = false ∧ mk (nField c).toNat = j := by
  unfold decodeCount
  split <;> simp_all

theorem decodeSigned_eq_ok_iff {c : Word} {j : Instr} :
    decodeSigned c = .ok j ↔ nField c = 0 ∧ (sField c = true ∧ .b2is = j ∨ sField c = false ∧ .b2i = j) := by
  unfold decodeSigned
  split
  · simp_all
  · cases sField c <;> simp_all

theorem decodePlain_isError_iff {c : Word} {i : Instr} :
    (∃ why, decodePlain c i = .error why) ↔ sField c = true ∨ nField c ≠ 0 := by
  unfold decodePlain
  split
  · simp_all
  · split <;> simp_all

theorem decodeCount_isError_iff {c : Word} {mk : Nat → Instr} :
    (∃ why, decodeCount c mk = .error why) ↔ sField c = true := by
  unfold decodeCount
  split <;> simp_all

theorem decodeSigned_isError_iff {c : Word} : (∃ why, decodeSigned c = .error why) ↔ nField c ≠ 0 := by
  unfold decodeSigned
  split <;> simp_all

theorem nField_eq_zero_iff {c : Word} : nField c = 0 ↔ (nField c).toNat = 0 := by
  rw [← BitVec.toNat_inj]; rfl

/-- A set reserved bit makes a word illegal whatever else it holds (30_encoding.md R51). -/
theorem decode_of_reserved {c : Word} (h : ¬ (resHField c = 0 ∧ resLField c = 0)) : ∃ why, decode c = .error why := by
  by_cases hH : resHField c = 0
  · exact ⟨.reservedLow, (if_neg (by simp [hH])).trans (if_pos fun hL => h ⟨hH, hL⟩)⟩
  · exact ⟨.reservedHigh, if_pos hH⟩

/-- The decoder gives a command exactly to the words with the command's fields. -/
theorem decode_eq_ok_iff_hasFields {c : Word} {i : Instr} : decode c = .ok i ↔ HasFields c i := by
  by_cases h : resHField c = 0 ∧ resLField c = 0
  · obtain ⟨hH, hL⟩ := h
    rw [decode_of_fields hH hL, HasFields, ← BitVec.toNat_inj (x := opField c)]
    split
    next ho => rw [decodeCount_eq_ok_iff]; cases i <;> simp [hH, hL, ho, signBit, opNumber, countOf]
    next ho =>
      rw [decodeSigned_eq_ok_iff, nField_eq_zero_iff]
      cases i <;> simp [hH, hL, ho, signBit, opNumber, countOf, and_comm]
    next ho => rw [decodeCount_eq_ok_iff]; cases i <;> simp [hH, hL, ho, signBit, opNumber, countOf]
    next ho => rw [decodePlain_eq_ok_iff, nField_eq_zero_iff]; cases i <;> simp [hH, hL, ho, signBit, opNumber, countOf]
    next ho => rw [decodePlain_eq_ok_iff, nField_eq_zero_iff]; cases i <;> simp [hH, hL, ho, signBit, opNumber, countOf]
    next h1 h2 h3 h4 h5 =>
      have hop : (opField c).toNat ∉ [1, 2, 3, 4, 5] := by simpa using ⟨h1, h2, h3, h4, h5⟩
      exact iff_of_false (fun he => by cases he) fun ⟨_, _, _, ho, _⟩ => hop (ho ▸ opNumber_toNat_mem i)
  · obtain ⟨why, hw⟩ := decode_of_reserved h
    rw [hw]
    exact iff_of_false (fun he => by cases he) fun ⟨hH, hL, _⟩ => h ⟨hH, hL⟩

/-- 30_encoding.md R51's clauses in the decoder's own fields. -/
theorem illegalWord_iff_fields {c : Word} : IllegalWord c ↔
    resHField c ≠ 0 ∨ resLField c ≠ 0 ∨ (opField c).toNat ∉ [1, 2, 3, 4, 5]
      ∨ (sField c = true ∧ (opField c).toNat ≠ 2) ∨ (nField c ≠ 0 ∧ (opField c).toNat ∈ [2, 4, 5]) := Iff.rfl

/-- The five clauses of 30_encoding.md R51 are the words the decoder refuses. -/
theorem illegalWord_iff_decode_error {c : Word} : IllegalWord c ↔ ∃ why, decode c = .error why := by
  by_cases h : resHField c = 0 ∧ resLField c = 0
  · obtain ⟨hH, hL⟩ := h
    rw [decode_of_fields hH hL, illegalWord_iff_fields]
    split
    next ho => rw [decodeCount_isError_iff]; simp [hH, hL, ho]
    next ho => rw [decodeSigned_isError_iff]; simp [hH, hL, ho]
    next ho => rw [decodeCount_isError_iff]; simp [hH, hL, ho]
    next ho => rw [decodePlain_isError_iff]; simp [hH, hL, ho]
    next ho => rw [decodePlain_isError_iff]; simp [hH, hL, ho]
    next h1 h2 h3 h4 h5 =>
      have hop : (opField c).toNat ∉ [1, 2, 3, 4, 5] := by simpa using ⟨h1, h2, h3, h4, h5⟩
      exact iff_of_true (.inr (.inr (.inl hop))) ⟨_, rfl⟩
  · exact iff_of_true (illegalWord_iff_fields.mpr (by tauto)) (decode_of_reserved h)

/-! ## The rows of the opcode map by their fields (30_encoding.md R56) -/

/-- The mask of the commands with a count fixes every field but N. -/
theorem and_countMask_eq_iff {c : Word} {b : Bool} {op : BitVec 4} : c &&& 0xFFFF80FF#32 = formatC 0 b op ↔
    resHField c = 0 ∧ resLField c = 0 ∧ sField c = b ∧ opField c = op := by
  have hH : resHField 0xFFFF80FF#32 = BitVec.allOnes 17 := by decide
  have hN : nField 0xFFFF80FF#32 = 0#7 := by decide
  have hL : resLField 0xFFFF80FF#32 = BitVec.allOnes 3 := by decide
  have hS : sField 0xFFFF80FF#32 = true := by decide
  have hO : opField 0xFFFF80FF#32 = BitVec.allOnes 4 := by decide
  simp only [word_ext_fields, resHField_and, nField_and, resLField_and, sField_and, opField_and, hH, hN, hL, hS, hO,
    resHField_formatC, nField_formatC, resLField_formatC, sField_formatC, opField_formatC, BitVec.and_allOnes,
    BitVec.and_zero, Bool.and_true, true_and]

/-- The mask of the other commands fixes every field, N at 0. -/
theorem and_fullMask_eq_iff {c : Word} {b : Bool} {op : BitVec 4} : c &&& 0xFFFFFFFF#32 = formatC 0 b op ↔
    resHField c = 0 ∧ resLField c = 0 ∧ sField c = b ∧ opField c = op ∧ (nField c).toNat = 0 := by
  have hm : c &&& 0xFFFFFFFF#32 = c := BitVec.and_allOnes
  rw [hm, word_ext_fields, ← nField_eq_zero_iff, resHField_formatC, nField_formatC, resLField_formatC, sField_formatC,
    opField_formatC]
  tauto

/-- The pattern of a row: OP and S of its command, the other fields 0 (30_encoding.md R56). -/
theorem opcodeRow_pattern (i : Instr) : (opcodeRow i).pattern = formatC 0 (signBit i) (opNumber i) := by
  cases i <;> simp only [opcodeRow, signBit, opNumber] <;> decide

/-- A row selects exactly the words of its command, whatever the count where the command has one (30_encoding.md
R56). -/
theorem selects_iff_hasFields {c : Word} {i : Instr} :
    (opcodeRow i).selects c = true ↔ HasFields c (withCount (nField c).toNat i) := by
  rw [HasFields, OpcodeRow.selects, beq_iff_eq, opcodeRow_pattern]
  cases i with
  | i2b w => refine and_countMask_eq_iff.trans ?_; simp [withCount, signBit, opNumber, countOf]
  | swp g => refine and_countMask_eq_iff.trans ?_; simp [withCount, signBit, opNumber, countOf]
  | b2i => exact and_fullMask_eq_iff
  | b2is => exact and_fullMask_eq_iff
  | by2b => exact and_fullMask_eq_iff
  | b2by => exact and_fullMask_eq_iff

theorem selects_iff_decode {c : Word} {i : Instr} :
    (opcodeRow i).selects c = true ↔ decode c = .ok (withCount (nField c).toNat i) :=
  selects_iff_hasFields.trans decode_eq_ok_iff_hasFields.symm

theorem withCount_countOf (i : Instr) : withCount (countOf i) i = i := by cases i <;> rfl

theorem eq_withCount_of_decode {c : Word} {i : Instr} (h : decode c = .ok i) : i = withCount (nField c).toNat i := by
  obtain ⟨-, -, -, -, hn⟩ := decode_eq_ok_iff_hasFields.mp h
  rw [hn, withCount_countOf]

/-- A word is command X exactly when it matches X's row and X's count is N (30_encoding.md R56). -/
theorem decode_eq_ok_iff {c : Word} {i : Instr} :
    decode c = .ok i ↔ (opcodeRow i).selects c = true ∧ i = withCount (nField c).toNat i := by
  rw [selects_iff_decode]
  constructor
  · intro h
    have hi := eq_withCount_of_decode h
    exact ⟨hi ▸ h, hi⟩
  · rintro ⟨h, hi⟩
    exact hi ▸ h

/-- A word matches the row of a command only if that is the row of the command it decodes to. -/
theorem opcodeRow_eq_of_selects {c : Word} {i j : Instr} (hi : (opcodeRow i).selects c = true)
    (hj : (opcodeRow j).selects c = true) : opcodeRow i = opcodeRow j := by
  have h := (selects_iff_decode.mp hi).symm.trans (selects_iff_decode.mp hj)
  rw [← opcodeRow_withCount (nField c).toNat i, Except.ok.inj h, opcodeRow_withCount]

/-- The words no row selects are the illegal ones (30_encoding.md R56). -/
theorem illegalWord_iff_no_row {c : Word} : IllegalWord c ↔ ∀ i, (opcodeRow i).selects c = false := by
  rw [illegalWord_iff_decode_error]
  constructor
  · rintro ⟨why, hw⟩ i
    rw [Bool.eq_false_iff, ne_eq, selects_iff_decode, hw]
    exact fun h => by cases h
  · intro h
    cases hd : decode c with
    | error why => exact ⟨why, rfl⟩
    | ok i => exact absurd (decode_eq_ok_iff.mp hd).1 (by simp [h i])

/-! ## A CMD write that is no illegal word -/

theorem errorCode_eq_four_iff {e : ErrorKind} : errorCode e = 4 ↔ e = .illegalCommand := by cases e <;> decide

/-- A legal command ends in no IllegalCommand (60_exceptions.md R69, R73). -/
theorem Ending.err_ne_illegal {i : Instr} {s t : State} (h : Ending i s t) : t.status.err ≠ 4 := by
  cases h with
  | error e k ht hc =>
    subst ht
    exact fun h4 => hc.ne_illegal (errorCode_eq_four_iff.mp h4)
  | success hs _ _ => rw [hs]; exact (by decide : (0 : BitVec 3) ≠ 4)

/-! ## The pseudo-instructions (30_encoding.md R55) -/

theorem assembleI2b_of_le {w : Nat} (h : w ≤ 64) : Asm.assembleI2b w = some [encode (.i2b w)] := if_pos h

/-- SWP 8 takes the lanes of byte k to byte n-1-k, each at its own place (41_swap.md R64). -/
theorem afterSwp_eight_laneAt (s : State) {n k i : Nat} (hs : s.llen.toNat = 8 * n) (hn : n ≤ 8) (hk : k < n)
    (hi : i < 8) : (afterSwp 8 s).laneAt (8 * (n - 1 - k) + i) = s.laneAt (8 * k + i) := by
  have hl : s.llen.toNat ≤ 64 := by omega
  have hp : 8 * (n - 1 - k) + i < n * 8 := by omega
  refine afterSwp_laneAt s (by omega) hl (by omega) (by omega) ?_
  rw [swapRuns_getElem?_whole (by omega) n _ (by rw [s.sequence_length hl]; omega) _ hp]
  congr 1
  omega

/-- The low w bits of a word, most significant first: what B2I and B2I.S read after I2B w (20_memory.md R35). -/
def lowBits (v : DWord) (w : Nat) : List Bool := (List.range w).map fun i => v.getLsbD (w - 1 - i)

/-- I2B w and then a conversion: the number the low w bits of INT stand for goes into INT (30_encoding.md R55). -/
theorem afterI2b_convertBits (s : State) {w : Nat} (h : w ≤ 64) (value : List Bool → DWord) :
    (afterI2b w s).convertBits value = ({ afterI2b w s with int := value (lowBits s.int w) } : State).succeed := by
  rw [convertBits_ok _ value ((afterI2b_llen s h).trans_le h) (afterI2b_isBit s h), afterI2b_sequence s h,
    filterMap_norm_canonicalLane, lowBits]

/-- The unsigned number of the low w bits of a word is their zero extension. -/
theorem ofNat_unsignedValue_lowBits (v : DWord) (w : Nat) :
    BitVec.ofNat 64 (unsignedValue (lowBits v w)) = (v.setWidth w).setWidth 64 := by
  rw [lowBits, unsignedValue_lowBits, BitVec.ofNat_toNat]

/-- The two's-complement number of the low w bits of a word is their sign extension. -/
theorem ofInt_signedValue_lowBits (v : DWord) (w : Nat) :
    BitVec.ofInt 64 (signedValue (lowBits v w)) = (v.setWidth w).signExtend 64 := by
  have hv : (v.setWidth w).toNat = unsignedValue (lowBits v w) := (unsignedValue_lowBits v w).symm
  rw [signedValue_eq_toInt (by simp [lowBits]) hv, BitVec.signExtend]

theorem execSeq_pair {i j : Instr} {s t u : State} (hi : exec i s = .next t) (hj : exec j t = .next u) :
    execSeq [i, j] s = .next u := by
  simp [execSeq, hi, hj]

/-- The effect of zext w. -/
theorem execSeq_zext (s : State) {w : Nat} (h : w ≤ 64) : execSeq [.i2b w, .b2i] s =
    .next ({ afterI2b w s with int := (s.int.setWidth w).setWidth 64 } : State).succeed := by
  refine execSeq_pair (exec_i2b_eq s h) (congrArg Host.Outcome.next ?_)
  rw [afterI2b_convertBits s h, ofNat_unsignedValue_lowBits]

/-- The effect of sext w. -/
theorem execSeq_sext (s : State) {w : Nat} (h : w ≤ 64) : execSeq [.i2b w, .b2is] s =
    .next ({ afterI2b w s with int := (s.int.setWidth w).signExtend 64 } : State).succeed := by
  refine execSeq_pair (exec_i2b_eq s h) (congrArg Host.Outcome.next ?_)
  rw [afterI2b_convertBits s h, ofInt_signedValue_lowBits]

/-! ## The obligations -/

/-- Settles O4: each row selects the words that decode to its command, so no word is in two rows and the words in none
are the ones the decoder refuses. -/
theorem opcodeMapSelectsByMask : Obligations.OpcodeMapSelectsByMask := by
  have rows : [Instr.i2b 0, .b2i, .b2is, .swp 0, .by2b, .b2by].Pairwise fun i j => opcodeRow i ≠ opcodeRow j := by
    decide
  refine ⟨fun c n => ?_, fun c => ?_, fun c => ?_, fun c n => ?_, fun c => ?_, fun c => ?_, fun c => ?_,
    fun c => illegalWord_iff_no_row, by decide⟩
  case refine_7 => exact List.pairwise_map.mpr (rows.imp fun hne ⟨hi, hj⟩ => hne (opcodeRow_eq_of_selects hi hj))
  all_goals simp [decode_eq_ok_iff, OpcodeRow.selects, opcodeRow, withCount, nField]

/-- Settles O5: an illegal word is one the decoder refuses, and any other runs a command, whose errors have other
causes. -/
theorem illegalWordRaisesIllegalCommand : Obligations.IllegalWordRaisesIllegalCommand := by
  refine fun c => ⟨illegalWord_iff_decode_error, fun s hs => ⟨fun hI => ?_, fun hI => ?_⟩⟩
  · obtain ⟨why, hw⟩ := illegalWord_iff_decode_error.mp hI
    exact step_cmd_error s hs hw
  · obtain ⟨t, ht, ⟨why, hw, -⟩ | ⟨i, -, -, he⟩⟩ := step_cmd s c hs
    · exact absurd (illegalWord_iff_decode_error.mpr ⟨why, hw⟩) hI
    · exact ⟨_, ht, he.err_ne_illegal⟩

/-- Settles O46: the expansions as the assembler gives them, and the effects from the spec lemmas of I2B, B2I, B2I.S
and SWP. -/
theorem pseudoInstructions : Obligations.PseudoInstructions := by
  refine ⟨rfl, rfl, rfl, fun w hw => ⟨?_, ?_⟩, fun s hs => ?_, fun s n k i hs hn hk hi => ?_, fun s w hw => ?_,
    fun s w hw => ?_⟩
  · rw [Asm.assemble, assembleI2b_of_le hw]; rfl
  · rw [Asm.assemble, assembleI2b_of_le hw]; rfl
  · exact ⟨_, exec_swp_eq s le_rfl hs, by rw [afterSwp_sequence s le_rfl hs, swapRuns_one]⟩
  · exact ⟨_, exec_swp_eq s (by omega) (by omega), afterSwp_eight_laneAt s hs hn hk hi⟩
  · exact ⟨_, execSeq_zext s hw, rfl, rfl⟩
  · exact ⟨_, execSeq_sext s hw, rfl, rfl⟩

end Sys2Proof.Machine
end

section
/-! PROOFS of the statements of 40_int_bits.md. The word of I2B decodes by its fields; the effects of I2B, B2I and
B2I.S are the spec lemmas `exec_i2b_eq`, `exec_b2i_eq` and `exec_b2is_eq`, with the bits of the sequence read as the
rules' sums. The source's algorithm is followed bit by bit: position w-1-k gets bit k of the number, and bit k below w
does not change when a multiple of 2^w is added. -/

namespace Sys2Proof.Machine

/-! ## The word of a command (30_encoding.md R47, R56) -/

/-- A well-formed command's word has the command's fields. -/
theorem hasFields_encode {i : Instr} (h : WellFormed i = true) : HasFields (encode i) i := by
  have hN : ∀ {n : Nat}, countFits n = true → (BitVec.ofNat 7 n).toNat = n := fun hn =>
    Nat.mod_eq_of_lt (countFits_iff.mp hn)
  cases i with
  | i2b w => simp [HasFields, encode, signBit, opNumber, countOf, hN h]
  | swp g => simp [HasFields, encode, signBit, opNumber, countOf, hN h]
  | _ => simp [HasFields, encode, signBit, opNumber, countOf]

/-- The word of I2B as 30_encoding.md R56 writes it. -/
theorem encode_i2b {w : Nat} (h : w < 128) : encode (.i2b w) = 0x00000001#32 ||| BitVec.ofNat 32 w <<< 8 :=
  formatC_count h

theorem decode_i2b_word {w : Nat} (h : w < 128) :
    decode (0x00000001#32 ||| BitVec.ofNat 32 w <<< 8) = .ok (.i2b w) := by
  rw [← encode_i2b h]
  exact decode_eq_ok_iff_hasFields.mpr (hasFields_encode (countFits_iff.mpr h))

/-! ## The numbers of a sequence (40_int_bits.md R60, R61) -/

/-- Whether lane i of the state is a 1 (40_int_bits.md R57). -/
def laneBit (s : State) (i : Nat) : Bool := (norm (s.laneAt i)).getD false

theorem bitValue_laneAt (s : State) (i : Nat) : bitValue (s.laneAt i) = (laneBit s i).toNat := rfl

theorem bitValue_laneAt_eq_one_iff {s : State} {i : Nat} : bitValue (s.laneAt i) = 1 ↔ laneBit s i = true := by
  rw [bitValue_laneAt, Bool.toNat_eq_one]

/-- The bits B2I and B2I.S read, in lane order. -/
def laneBits (s : State) : List Bool := (List.range s.llen.toNat).map (laneBit s)

theorem laneBits_length (s : State) : (laneBits s).length = s.llen.toNat := by simp [laneBits]

theorem laneBits_getD {s : State} {i : Nat} (h : i < s.llen.toNat) : (laneBits s).getD i false = laneBit s i := by
  simp [laneBits, List.getD, h]

theorem unsignedValue_laneBits (s : State) : unsignedValue (laneBits s)
    = ∑ i ∈ Finset.range s.llen.toNat, bitValue (s.laneAt i) * 2 ^ (s.llen.toNat - 1 - i) :=
  unsignedValue_map_range (laneBit s) s.llen.toNat

theorem unsignedValue_laneBits_lt {s : State} (h : s.llen.toNat ≤ 64) : unsignedValue (laneBits s) < 2 ^ 64 := by
  have hlt := unsignedValue_lt (laneBits s)
  rw [laneBits_length] at hlt
  exact hlt.trans_le (Nat.pow_le_pow_right (by omega) h)

/-- The two's-complement value as the rule's sums: a leading 1 leaves the other bits' value less 2^(L-1)
(40_int_bits.md R61). -/
theorem signedValue_map_range (f : Nat → Bool) (n : Nat) : signedValue ((List.range n).map f) =
    if 1 ≤ n ∧ f 0 = true then (∑ i ∈ Finset.Ico 1 n, ((f i).toNat : Int) * 2 ^ (n - 1 - i)) - 2 ^ (n - 1)
    else ∑ i ∈ Finset.range n, ((f i).toNat : Int) * 2 ^ (n - 1 - i) := by
  cases n with
  | zero => rfl
  | succ n =>
    have hcons : (List.range (n + 1)).map f = f 0 :: (List.range n).map fun i => f (i + 1) := by
      rw [List.range_succ_eq_map, List.map_cons, List.map_map]; rfl
    have hrest : (unsignedValue ((List.range n).map fun i => f (i + 1)) : Int)
        = ∑ i ∈ Finset.range n, ((f (i + 1)).toNat : Int) * 2 ^ (n - 1 - i) := by
      rw [unsignedValue_map_range]; push_cast; rfl
    rw [hcons, signedValue_cons, hrest, List.length_map, List.length_range]
    cases hf : f 0 with
    | true => simp [Finset.sum_Ico_eq_sum_range, Nat.sub_sub, Nat.add_comm 1]
    | false => simp [Finset.sum_range_succ', hf, Nat.sub_sub, Nat.add_comm 1]

theorem signedValue_laneBits (s : State) : signedValue (laneBits s) =
    if 1 ≤ s.llen.toNat ∧ bitValue (s.laneAt 0) = 1 then
      (∑ i ∈ Finset.Ico 1 s.llen.toNat, (bitValue (s.laneAt i) : Int) * 2 ^ (s.llen.toNat - 1 - i))
        - 2 ^ (s.llen.toNat - 1)
    else ∑ i ∈ Finset.range s.llen.toNat, (bitValue (s.laneAt i) : Int) * 2 ^ (s.llen.toNat - 1 - i) := by
  simp only [bitValue_laneAt_eq_one_iff]
  exact signedValue_map_range (laneBit s) s.llen.toNat

theorem toInt_ofInt_signedValue {bits : List Bool} (h : bits.length ≤ 64) :
    (BitVec.ofInt 64 (signedValue bits)).toInt = signedValue bits :=
  have ⟨hlo, hhi⟩ := signedValue_bounds h
  BitVec.toInt_ofInt_eq_self (by omega) hlo hhi

/-- The signed value of L bits as 64 bits is the sign extension of the L-bit word: bit j is bit j of the word below L
and the first bit of the sequence from L on (40_int_bits.md R61). -/
theorem getLsbD_ofInt_signedValue {bits : List Bool} (h : 1 ≤ bits.length) {j : Nat} (hj : j < 64) :
    (BitVec.ofInt 64 (signedValue bits)).getLsbD j
      = bits.getD (if j < bits.length then bits.length - 1 - j else 0) false := by
  have hv : (BitVec.ofNat bits.length (unsignedValue bits)).toNat = unsignedValue bits :=
    Nat.mod_eq_of_lt (unsignedValue_lt bits)
  rw [signedValue_eq_toInt rfl hv, ← BitVec.signExtend, BitVec.getLsbD_signExtend, BitVec.msb_eq_getLsbD_last]
  simp only [BitVec.getLsbD, hv, unsignedValue_testBit, hj, decide_true, Bool.true_and]
  split
  next hlt => simp [hlt]
  next hge => simp [show bits.length - 1 < bits.length by omega]

/-! ## B2I and B2I.S -/

/-- The bits of an accepted sequence are its lanes' bits. -/
theorem filterMap_norm_eq_laneBits {s : State} (h : s.llen.toNat ≤ 64)
    (hb : ∀ i, i < s.llen.toNat → IsBit (s.laneAt i)) : s.sequence.filterMap norm = laneBits s :=
  s.filterMap_norm_sequence h hb

theorem exec_b2i_laneBits {s : State} (h : s.llen.toNat ≤ 64)
    (hb : ∀ i, i < s.llen.toNat → IsBit (s.laneAt i)) :
    exec .b2i s = .next ({ s with int := BitVec.ofNat 64 (unsignedValue (laneBits s)) } : State).succeed := by
  rw [exec_b2i_eq s h hb, filterMap_norm_eq_laneBits h hb]

theorem exec_b2is_laneBits {s : State} (h : s.llen.toNat ≤ 64)
    (hb : ∀ i, i < s.llen.toNat → IsBit (s.laneAt i)) :
    exec .b2is s = .next ({ s with int := BitVec.ofInt 64 (signedValue (laneBits s)) } : State).succeed := by
  rw [exec_b2is_eq s h hb, filterMap_norm_eq_laneBits h hb]

/-- The error B2I and B2I.S raise at the first lane that is no Bit (40_int_bits.md R57, 60_exceptions.md R70). -/
theorem exec_firstBadLane {s : State} {i : Instr} (hi : i = .b2i ∨ i = .b2is) {k : Nat}
    (h : s.llen.toNat ≤ 64) (hk : FirstBadLane IsBit s k) : exec i s = .next (s.raise .invalidBitValue k) := by
  obtain rfl | rfl := hi <;> exact congrArg Host.Outcome.next (convertBits_bad s _ h hk)

/-! ## Round trips (40_int_bits.md R62) -/

/-- Zero-extending the low w bits keeps a number below 2^w. -/
theorem toNat_setWidth_setWidth {v : DWord} {w : Nat} (h : v.toNat < 2 ^ w) :
    ((v.setWidth w).setWidth 64).toNat = v.toNat := by
  rw [BitVec.toNat_setWidth, BitVec.toNat_setWidth, Nat.mod_eq_of_lt h, Nat.mod_eq_of_lt v.isLt]

/-- Sign-extending the low w bits keeps a number in the signed range of w bits. -/
theorem toInt_signExtend_setWidth {v : DWord} {w : Nat} (h1 : 1 ≤ w) (h64 : w ≤ 64) (hlo : -2 ^ (w - 1) ≤ v.toInt)
    (hhi : v.toInt < 2 ^ (w - 1)) : ((v.setWidth w).signExtend 64).toInt = v.toInt := by
  have hw : v.setWidth w = BitVec.ofInt w v.toInt := (BitVec.signExtend_eq_setWidth_of_le v h64).symm
  rw [BitVec.toInt_signExtend_of_le h64, hw, BitVec.toInt_ofInt_eq_self (by omega) hlo hhi]

/-! ## The source's algorithm (40_int_bits.md R59) -/

/-- The least significant bit of a number shifted right k times, in two's complement (90_conflicts.md C1). -/
def numberBit (x : Int) (k : Nat) : Nat := (x / 2 ^ k % 2).toNat

theorem numberBit_zero_left (k : Nat) : numberBit 0 k = 0 := by simp [numberBit]

theorem numberBit_half (x : Int) (k : Nat) : numberBit (x / 2) k = numberBit x (k + 1) := by
  rw [numberBit, numberBit, Int.ediv_ediv_of_nonneg (by omega), pow_succ, mul_comm]

theorem numberBit_natCast (n k : Nat) : numberBit n k = (n.testBit k).toNat := by
  have h : (n : Int) / 2 ^ k % 2 = ((n / 2 ^ k % 2 : Nat) : Int) := by push_cast; rfl
  rw [numberBit, h, Int.toNat_natCast, Nat.toNat_testBit]

/-- Numbers that differ by a multiple of 2^w have the same bits below w. -/
theorem numberBit_congr {x y : Int} {w k : Nat} (h : (2 : Int) ^ w ∣ x - y) (hk : k < w) :
    numberBit x k = numberBit y k := by
  obtain ⟨c, hc⟩ := (pow_dvd_pow 2 (Nat.succ_le_of_lt hk)).trans h
  have hx : x = y + 2 ^ k * (2 * c) := by rw [← mul_assoc, ← pow_succ, ← hc]; omega
  rw [numberBit, numberBit, hx, Int.add_mul_ediv_left _ _ (by positivity), Int.add_mul_emod_self_left]

/-- Filling right to left puts bit k of the number at position n-1-k, and stopping at 0 leaves the bits that are 0. -/
theorem fill_eq (x : Int) (n : Nat) (filled : List Nat) :
    Source.fill x n filled = ((List.range n).map fun i => numberBit x (n - 1 - i)) ++ filled := by
  induction n generalizing x filled with
  | zero => rfl
  | succ n ih =>
    rw [Source.fill]
    split
    next h0 => simp [h0, numberBit_zero_left, List.map_const']
    next =>
      have hbits : ((List.range n).map fun i => numberBit (x / 2) (n - 1 - i))
          = (List.range n).map fun i => numberBit x (n + 1 - 1 - i) :=
        List.map_congr_left fun i hi => by
          have hi := List.mem_range.mp hi
          rw [numberBit_half]; congr 1; omega
      have hlast : (x % 2).toNat = numberBit x (n + 1 - 1 - n) := by simp [numberBit]
      rw [ih, hbits, List.range_succ, List.map_append, List.append_assoc, hlast]; rfl

theorem dvd_adjust_sub (x : Int) (w : Nat) : (2 : Int) ^ w ∣ Source.adjust x w - x := by
  unfold Source.adjust
  split <;> simp

/-- On any number with INT's low w bits the source's algorithm gives those bits, most significant first. -/
theorem intToBits_eq_lowBits {x : Int} {v : DWord} {w : Nat} (h : (2 : Int) ^ w ∣ x - v.toNat) :
    Source.intToBits x w = (lowBits v w).map Bool.toNat := by
  have hadj : (2 : Int) ^ w ∣ Source.adjust x w - v.toNat := by
    have := dvd_add (dvd_adjust_sub x w) h
    rwa [sub_add_sub_cancel] at this
  rw [Source.intToBits, fill_eq, List.append_nil, lowBits, List.map_map]
  refine List.map_congr_left fun i hi => ?_
  have hi := List.mem_range.mp hi
  rw [numberBit_congr hadj (by omega), numberBit_natCast]; rfl

/-- The signed and the unsigned value of INT agree modulo 2^w (40_int_bits.md R59). -/
theorem dvd_toInt_sub_toNat (v : DWord) {w : Nat} (h : w ≤ 64) : (2 : Int) ^ w ∣ v.toInt - v.toNat := by
  refine (pow_dvd_pow 2 h).trans ?_
  rw [BitVec.toInt_eq_msb_cond]
  split <;> simp

theorem toNat_canonicalLane (b : Bool) : (canonicalLane b).toNat = b.toNat := by cases b <;> rfl

theorem afterI2b_sequence_toNat (s : State) {w : Nat} (h : w ≤ 64) :
    (afterI2b w s).sequence.map BitVec.toNat = (lowBits s.int w).map Bool.toNat := by
  rw [afterI2b_sequence s h, List.map_map]
  exact List.map_congr_left fun b _ => toNat_canonicalLane b

/-! ## The obligations -/

/-- Settles O8: the word of I2B decodes by its fields, and the state the command leaves is `afterI2b`. -/
theorem i2bTruncatesIntoLanes : Obligations.I2bTruncatesIntoLanes := by
  refine ⟨fun w hw => decode_i2b_word hw, fun w hw => ?_, by decide,
    fun s w hw => ⟨_, exec_i2b_range s hw, rfl⟩,
    fun s w hw => ⟨_, exec_i2b_eq s hw, rfl, rfl, afterI2b_llen s hw, fun i hi => afterI2b_laneAt s w hi⟩⟩
  rw [← encode_i2b (by omega)]
  exact assembleI2b_of_le hw

/-- Settles O9: INT is the unsigned value of the lanes' bits, which is the rule's sum and fits 64 bits. -/
theorem b2iReadsUnsigned : Obligations.B2iReadsUnsigned := by
  refine ⟨by decide, by decide, by decide, fun s => ⟨fun hl => ⟨_, exec_outOfRange hl, rfl⟩,
    fun i hl hi => ⟨_, exec_firstBadLane (.inl rfl) hl hi, rfl⟩,
    fun hl hb => ⟨_, exec_b2i_laneBits hl hb, rfl, rfl, ?_⟩⟩⟩
  rw [← unsignedValue_laneBits]
  exact Nat.mod_eq_of_lt (unsignedValue_laneBits_lt hl)

/-- Settles O10: INT is the two's-complement value of the lanes' bits, which fits 64 bits and is the sign extension of
the word they are. -/
theorem b2isReadsTwosComplement : Obligations.B2isReadsTwosComplement := by
  refine ⟨by decide, by decide, fun s => ⟨fun hl => ⟨_, exec_outOfRange hl, rfl⟩,
    fun i hl hi => ⟨_, exec_firstBadLane (.inr rfl) hl hi, rfl⟩,
    fun hl hb => ⟨_, exec_b2is_laneBits hl hb, rfl, rfl, ?_, fun h1 j hj => ?_⟩⟩⟩
  · rw [← signedValue_laneBits]
    exact toInt_ofInt_signedValue ((laneBits_length s).trans_le hl)
  · have hbit := getLsbD_ofInt_signedValue (h1.trans_eq (laneBits_length s).symm) hj
    rw [laneBits_length, laneBits_getD (by split <;> omega)] at hbit
    rw [State.succeed_int, hbit, bitValue_laneAt_eq_one_iff]

/-- Settles O16: I2B followed by a conversion extends the low w bits of INT, and extending keeps a number in range. -/
theorem integerRoundTrips : Obligations.IntegerRoundTrips := fun s _ hw =>
  ⟨⟨_, exec_i2b_eq s hw, afterI2b_llen s hw⟩,
    ⟨_, execSeq_zext s hw, rfl, toNat_setWidth_setWidth⟩,
    fun h1 => ⟨_, execSeq_sext s hw, rfl, toInt_signExtend_setWidth h1 hw⟩⟩

/-- Settles O17: the algorithm gives the low w bits of every number that is INT modulo 2^w, and both values of INT
are. -/
theorem sourceAlgorithmYieldsI2bLanes : Obligations.SourceAlgorithmYieldsI2bLanes := fun s w hw =>
  ⟨_, exec_i2b_eq s hw,
    (afterI2b_sequence_toNat s hw).trans (intToBits_eq_lowBits (dvd_toInt_sub_toNat s.int hw)).symm,
    (afterI2b_sequence_toNat s hw).trans (intToBits_eq_lowBits (by simp)).symm⟩

end Sys2Proof.Machine
end

section
/-! PROOFS of the statements of 41_swap.md. The state SWP leaves is `afterSwp`, whose sequence is `swapRuns` of the
sequence before; so the rule's concatenation of runs, its permutation of the lanes and its laws are facts about
`swapRuns`, and the lanes beyond the sequence are not written. -/

namespace Sys2Proof.Machine

/-! ## The word of SWP (30_encoding.md R54, R56) -/

/-- The word of SWP as 30_encoding.md R56 writes it. -/
theorem encode_swp {g : Nat} (h : g < 128) : encode (.swp g) = 0x00000003#32 ||| BitVec.ofNat 32 g <<< 8 :=
  formatC_count h

theorem decode_swp_word {g : Nat} (h : g < 128) :
    decode (0x00000003#32 ||| BitVec.ofNat 32 g <<< 8) = .ok (.swp g) := by
  rw [← encode_swp h]
  exact decode_eq_ok_iff_hasFields.mpr (hasFields_encode (countFits_iff.mpr h))

theorem assembleSwp_of_mem {g : Nat} (h1 : 1 ≤ g) (h : g ≤ 127) : Asm.assembleSwp g = some [encode (.swp g)] :=
  if_pos ⟨h1, h⟩

/-! ## The runs by their bounds (41_swap.md R64) -/

/-- run_j is the elements from j*g up to min((j+1)*g, L): `runAt` takes g of them, or what is left. -/
theorem runAt_eq_take_min (g : Nat) (seq : List Byte) (j : Nat) :
    runAt g seq j = (seq.drop (j * g)).take (min ((j + 1) * g) seq.length - j * g) := by
  rw [runAt, List.take_eq_take_iff, List.length_drop, Nat.add_one_mul]
  omega

/-- The runs in reverse order, joined, as the rule writes them. -/
theorem swapRuns_eq_flatMap (g : Nat) (seq : List Byte) :
    swapRuns g seq = (List.range (runCount g seq.length)).reverse.flatMap fun j =>
      (seq.drop (j * g)).take (min ((j + 1) * g) seq.length - j * g) := by
  rw [swapRuns, ← List.map_reverse, ← List.flatMap_def, funext (runAt_eq_take_min g seq)]

/-- The rule's example of runs that are not all whole, g = 2 and L = 5 (41_swap.md R65). -/
theorem swapRuns_two_five (a b c d e : Byte) : swapRuns 2 [a, b, c, d, e] = [e, c, d, a, b] := by
  simp [swapRuns, runCount, runAt, List.range_succ]

/-! ## The lanes SWP leaves -/

section

variable (s : State)

/-- An output lane p is the lane its element of the sequence comes from. -/
theorem afterSwp_laneAt_of_getElem? {g p q : Nat} (hg : 1 ≤ g) (hl : s.llen.toNat ≤ 64) (hp : p < s.llen.toNat)
    (hpq : (swapRuns g s.sequence)[p]? = s.sequence[q]?) : (afterSwp g s).laneAt p = s.laneAt q := by
  have hlen : s.sequence.length = s.llen.toNat := s.sequence_length hl
  have hq : q < s.llen.toNat := by
    by_contra hn
    have hnone := hpq.trans (List.getElem?_eq_none (by omega))
    rw [List.getElem?_eq_none_iff, swapRuns_length hg] at hnone
    omega
  exact afterSwp_laneAt s hg hl hp hq hpq

/-- The rule's fixed permutation src(p) of the lanes: the last run, of r lanes, comes first, and then the whole runs
in reverse order (41_swap.md R64). -/
theorem afterSwp_laneAt_src {g k r p : Nat} (hg : 1 ≤ g) (hl : s.llen.toNat ≤ 64) (hk : k = runCount g s.llen.toNat)
    (hr : r = s.llen.toNat - (k - 1) * g) (hp : p < s.llen.toNat) : (afterSwp g s).laneAt p =
      s.laneAt (if p < r then (k - 1) * g + p else (k - 2 - (p - r) / g) * g + (p - r) % g) := by
  have hlen : s.sequence.length = s.llen.toNat := s.sequence_length hl
  have hget := swapRuns_getElem? hg s.sequence p (hp.trans_eq hlen.symm)
  rw [hlen, ← hk, ← hr] at hget
  exact afterSwp_laneAt_of_getElem? s hg hl hp hget

/-- The lanes are the sequence and what lies beyond it (10_state.md R15). -/
theorem State.lane_eq_of_sequence_eq {s t : State} (hl : s.llen.toNat ≤ 64) (h : SameSequence s t)
    (hbeyond : ∀ i, s.llen.toNat ≤ i → s.laneAt i = t.laneAt i) : s.lane = t.lane := by
  obtain ⟨hlen, hseq⟩ := h
  refine State.lane_ext fun i _ => ?_
  by_cases hi : i < s.llen.toNat
  · have hs := s.sequence_getElem? hl hi
    rw [hseq, t.sequence_getElem? (hlen ▸ hl) (hlen ▸ hi)] at hs
    exact (Option.some.inj hs).symm
  · exact hbeyond i (Nat.not_lt.mp hi)

/-- SWP g twice restores every lane where it restores the sequence (41_swap.md R65). -/
theorem execSeq_swp_twice {g : Nat} (hg : 1 ≤ g) (hl : s.llen.toNat ≤ 64)
    (h : swapRuns g (swapRuns g s.sequence) = s.sequence) :
    ∃ t : State, execSeq [.swp g, .swp g] s = .next t ∧ t.lane = s.lane := by
  have hl' : (afterSwp g s).llen.toNat ≤ 64 := hl
  refine ⟨_, execSeq_pair (exec_swp_eq s hg hl) (exec_swp_eq _ hg hl'),
    State.lane_eq_of_sequence_eq hl' ⟨rfl, ?_⟩ fun i hi => ?_⟩
  · rw [afterSwp_sequence _ hg hl', afterSwp_sequence s hg hl, h]
  · rw [afterSwp_laneAt_of_ge _ hg hl' hi, afterSwp_laneAt_of_ge s hg hl hi]

end

/-! ## The obligations -/

/-- Settles O11: the word of SWP decodes by its fields, and the state the command leaves is `afterSwp`, read as runs and
lane by lane. -/
theorem swpReversesRuns : Obligations.SwpReversesRuns := by
  refine ⟨fun g hg => decode_swp_word hg, fun g h1 hg => ?_, by decide,
    fun s g h => ⟨_, exec_swp_range s h, rfl⟩, fun s g k r hg hl hk hr =>
      ⟨_, exec_swp_eq s hg hl, ⟨rfl, fun i hi => afterSwp_laneAt_of_ge s hg hl hi⟩, rfl, ?_,
        fun p hp => afterSwp_laneAt_src s hg hl hk hr hp⟩⟩
  · rw [← encode_swp (by omega)]
    exact assembleSwp_of_mem h1 hg
  · rw [afterSwp_sequence s hg hl, swapRuns_eq_flatMap, s.sequence_length hl, runCount, ← hk]

/-- Settles O18: reversing the runs twice gives the sequence back when they are all whole or of one lane, it permutes
the sequence always, and the rule's example shows that it is no involution otherwise. -/
theorem swpLaws : Obligations.SwpLaws := by
  refine ⟨fun s g hg hl hdvd => ?_, fun s hl => ?_, fun s g hg hl => ?_, fun s a b c d e hlen hseq => ?_⟩
  · exact execSeq_swp_twice s hg hl (swapRuns_involutive hg _ (by rw [s.sequence_length hl, hdvd]))
  · exact execSeq_swp_twice s le_rfl hl (by rw [swapRuns_one, swapRuns_one, List.reverse_reverse])
  · exact ⟨_, exec_swp_eq s hg hl, rfl, afterSwp_sequence s hg hl ▸ swapRuns_perm hg _⟩
  · have hl : s.llen.toNat ≤ 64 := by rw [hlen]; decide
    have hl' : (afterSwp 2 s).llen.toNat ≤ 64 := hl
    have ht : (afterSwp 2 s).sequence = [e, c, d, a, b] := by
      rw [afterSwp_sequence s (by omega) hl, hseq, swapRuns_two_five]
    have hu : (afterSwp 2 (afterSwp 2 s)).sequence = [b, d, a, e, c] := by
      rw [afterSwp_sequence _ (by omega) hl', ht, swapRuns_two_five]
    exact ⟨_, _, exec_swp_eq s (by omega) hl, exec_swp_eq _ (by omega) hl', ht, hu⟩

end Sys2Proof.Machine
end

section
/-! PROOFS of the statements of 42_byte_codec.md. The states BY2B and B2BY leave are `afterBy2b` and `afterB2by`. A byte
is known by its EXP, and both commands keep to it: group k of the lanes is EXP of byte k, before B2BY as after BY2B, so
the round trips and the rule's sum are read off EXP (10_state.md R22). -/

namespace Sys2Proof.Machine

/-! ## The lookup table and the conversions at 8 bits (42_byte_codec.md R68) -/

theorem IsCanonicalLane.isBit {e : Byte} (h : IsCanonicalLane e) : IsBit e := h.eq ▸ isBit_canonicalLane _

/-- EXP inverts INV on the patterns of 8 canonical lanes. -/
theorem exists_compact_expand {p : List Byte} (h8 : p.length = 8) (hp : ∀ e ∈ p, IsCanonicalLane e) :
    ∃ v, compact p = some v ∧ expand v = p := by
  have hcompact := compact_map (bits := p.map fun e => e == 1) (by simpa using h8)
  rw [← canonical_eq_map hp] at hcompact
  exact ⟨_, hcompact, (compact_eq_some_iff _ _).mp hcompact⟩

/-- The low 8 bits of a word, as lanes, are EXP of its low byte. -/
theorem expand_low_byte (v : DWord) : expand (v.extractLsb' 0 8) = (lowBits v 8).map canonicalLane := by
  rw [expand_eq_map, byteBits, lowBits]
  congr 1
  refine List.map_congr_left fun i _ => ?_
  simp [show 7 - i < 8 by omega]

/-- INV agrees with the number B2I reads: the low byte of the value of 8 bits is the byte whose lanes they are. -/
theorem compact_eq_low_byte {p : List Byte} (h8 : p.length = 8) (hp : ∀ e ∈ p, IsCanonicalLane e) :
    compact p = some ((BitVec.ofNat 64 (unsignedValue (p.filterMap norm))).extractLsb' 0 8) := by
  have hlow : ∀ n : Nat, (BitVec.ofNat 64 n).extractLsb' 0 8 = BitVec.ofNat 8 n := fun n => by
    apply BitVec.eq_of_toNat_eq; simp
  rw [canonical_eq_map hp, filterMap_norm_canonicalLane, compact_map (by simpa using h8), hlow]

/-! ## The lanes and bytes of the two commands -/

section

variable (s : State)

/-- Group k of the lanes BY2B leaves is EXP of byte k (42_byte_codec.md R66). -/
theorem expand_byteAt_eq_afterBy2b_lanes (h : s.blen.toNat ≤ 8) {k : Nat} (hk : k < s.blen.toNat) :
    expand (s.byteAt k) = (List.range 8).map fun i => (afterBy2b s).laneAt (8 * k + i) :=
  List.map_congr_left fun _ hi => (afterBy2b_laneAt s h hk (List.mem_range.mp hi)).symm

theorem afterBy2b_canonical (h : s.blen.toNat ≤ 8) :
    ∀ i, i < (afterBy2b s).llen.toNat → IsCanonicalLane ((afterBy2b s).laneAt i) := by
  intro i hi
  rw [afterBy2b_llen s h] at hi
  rw [← Nat.div_add_mod i 8, afterBy2b_laneAt s h (by omega) (by omega)]
  exact isCanonicalLane_canonicalLane _

section

variable (hl : s.llen.toNat ≤ 64) (hb : ∀ i, i < s.llen.toNat → IsCanonicalLane (s.laneAt i))
include hl hb

/-- Lane 8k+i is bit 7-i of the byte B2BY makes of its group (42_byte_codec.md R67). -/
theorem canonicalLane_afterB2by_byteAt {k i : Nat} (hk : k < s.llen.toNat / 8) (hi : i < 8) :
    canonicalLane (((afterB2by s).byteAt k).getLsbD (7 - i)) = s.laneAt (8 * k + i) := by
  have hget := expand_getElem? ((afterB2by s).byteAt k) hi
  rw [expand_afterB2by_byteAt s hl hb hk] at hget
  simpa [hi] using hget.symm

/-- The byte B2BY makes of a group is the rule's sum of its lanes (42_byte_codec.md R67). -/
theorem afterB2by_byteAt_toNat {k : Nat} (hk : k < s.llen.toNat / 8) : ((afterB2by s).byteAt k).toNat =
    ∑ i ∈ Finset.range 8, (s.laneAt (8 * k + i)).toNat * 2 ^ (7 - i) := by
  rw [byte_eq_sum, expand_afterB2by_byteAt s hl hb hk]
  refine Finset.sum_congr rfl fun i hi => ?_
  simp [List.getD, Finset.mem_range.mp hi]

end

/-! ## Round trips (42_byte_codec.md R68) -/

/-- B2BY accepts what BY2B leaves. -/
theorem execSeq_by2b_b2by (h : s.blen.toNat ≤ 8) :
    execSeq [.by2b, .b2by] s = .next (afterB2by (afterBy2b s)) := by
  have hlen : (afterBy2b s).llen.toNat = 8 * s.blen.toNat := afterBy2b_llen s h
  exact execSeq_pair (exec_by2b_eq s h) (exec_b2by_eq _ (by omega) (by omega) (afterBy2b_canonical s h))

theorem afterB2by_afterBy2b_blen (h : s.blen.toNat ≤ 8) : (afterB2by (afterBy2b s)).blen = s.blen := by
  have hlen : (afterBy2b s).llen.toNat = 8 * s.blen.toNat := afterBy2b_llen s h
  apply BitVec.eq_of_toNat_eq
  rw [afterB2by_blen _ (by omega), hlen]
  omega

/-- B2BY after BY2B gives a byte of the same EXP, and so the same byte. -/
theorem afterB2by_afterBy2b_byteAt (h : s.blen.toNat ≤ 8) {k : Nat} (hk : k < s.blen.toNat) :
    (afterB2by (afterBy2b s)).byteAt k = s.byteAt k := by
  have hlen : (afterBy2b s).llen.toNat = 8 * s.blen.toNat := afterBy2b_llen s h
  apply expand_injective
  rw [expand_afterB2by_byteAt _ (by omega) (afterBy2b_canonical s h) (by omega), expand_byteAt_eq_afterBy2b_lanes s h hk]

theorem afterB2by_afterBy2b_byteAt_of_ge (h : s.blen.toNat ≤ 8) {k : Nat} (hk : s.blen.toNat ≤ k) (hk8 : k < 8) :
    (afterB2by (afterBy2b s)).byteAt k = 0x00#8 := by
  have hlen : (afterBy2b s).llen.toNat = 8 * s.blen.toNat := afterBy2b_llen s h
  exact afterB2by_byteAt_of_ge _ (by omega) (by omega) hk8

section

variable (hl : s.llen.toNat ≤ 64) (h8 : s.llen.toNat % 8 = 0)
include hl

/-- B2BY leaves no more bytes than BY2B accepts. -/
theorem afterB2by_blen_le : (afterB2by s).blen.toNat ≤ 8 := by
  rw [afterB2by_blen s hl]; omega

theorem afterBy2b_afterB2by_laneAt_of_ge {i : Nat} (hi : s.llen.toNat ≤ i) (hi64 : i < 64) :
    (afterBy2b (afterB2by s)).laneAt i = 0x00#8 := by
  have hlen : (afterB2by s).blen.toNat = s.llen.toNat / 8 := afterB2by_blen s hl
  exact afterBy2b_laneAt_of_ge _ (by omega) (by omega) hi64

include h8

theorem execSeq_b2by_by2b (hb : ∀ i, i < s.llen.toNat → IsCanonicalLane (s.laneAt i)) :
    execSeq [.b2by, .by2b] s = .next (afterBy2b (afterB2by s)) :=
  execSeq_pair (exec_b2by_eq s hl h8 hb) (exec_by2b_eq _ (afterB2by_blen_le s hl))

theorem afterBy2b_afterB2by_llen : (afterBy2b (afterB2by s)).llen = s.llen := by
  apply BitVec.eq_of_toNat_eq
  rw [afterBy2b_llen _ (afterB2by_blen_le s hl), afterB2by_blen s hl]
  omega

/-- BY2B after B2BY gives a lane of the sequence back as a bit of its group's byte. -/
theorem afterBy2b_afterB2by_laneAt (hb : ∀ i, i < s.llen.toNat → IsCanonicalLane (s.laneAt i)) {i : Nat}
    (hi : i < s.llen.toNat) : (afterBy2b (afterB2by s)).laneAt i = s.laneAt i := by
  have hlen : (afterB2by s).blen.toNat = s.llen.toNat / 8 := afterB2by_blen s hl
  rw [← Nat.div_add_mod i 8, afterBy2b_laneAt _ (by omega) (by omega) (by omega),
    canonicalLane_afterB2by_byteAt s hl hb (by omega) (by omega)]

end

/-! ## The codec and the integer conversions (42_byte_codec.md R68) -/

/-- I2B 8 leaves EXP of the low byte of INT. -/
theorem afterI2b_eight_sequence : (afterI2b 8 s).sequence = expand (s.int.extractLsb' 0 8) :=
  (afterI2b_sequence s (by omega)).trans (expand_low_byte s.int).symm

/-- On 8 canonical lanes B2I leaves INV of them in the low byte of INT. -/
theorem exec_b2i_eight (hlen : s.llen = 8) (hb : ∀ i, i < 8 → IsCanonicalLane (s.laneAt i)) :
    ∃ t : State, exec .b2i s = .next t ∧ compact s.sequence = some (t.int.extractLsb' 0 8) := by
  have hlen' : s.llen.toNat = 8 := by rw [hlen]; rfl
  have hl : s.llen.toNat ≤ 64 := by omega
  have hb' : ∀ i, i < s.llen.toNat → IsCanonicalLane (s.laneAt i) := hlen' ▸ hb
  exact ⟨_, exec_b2i_eq s hl fun i hi => (hb' i hi).isBit,
    compact_eq_low_byte ((s.sequence_length hl).trans hlen') ((s.forall_mem_sequence hl).mpr hb')⟩

end

/-! ## The obligations -/

/-- Settles O12: the state BY2B leaves is `afterBy2b`, read lane by lane. -/
theorem by2bExpandsBytes : Obligations.By2bExpandsBytes :=
  ⟨by decide, by decide, fun s => ⟨fun hr => ⟨_, exec_by2b_range s hr, rfl⟩,
    fun h => ⟨_, exec_by2b_eq s h, rfl, rfl, afterBy2b_llen s h, fun _ _ hk hi => afterBy2b_laneAt s h hk hi,
      fun _ hj hj64 => afterBy2b_laneAt_of_ge s h hj hj64⟩⟩⟩

/-- Settles O13: the errors in the rule's order, and the state B2BY otherwise leaves is `afterB2by`, whose bytes are the
rule's sums because EXP of each is its group of lanes. -/
theorem b2byReducesLanes : Obligations.B2byReducesLanes :=
  ⟨by decide, by decide, fun s => ⟨fun hr => ⟨_, exec_b2by_range s hr, rfl⟩,
    fun hl h8 => ⟨_, exec_b2by_length s hl h8, rfl⟩,
    fun _ hl h8 hi => ⟨_, exec_b2by_bad s hl h8 hi, rfl⟩,
    fun hl h8 hb => ⟨_, exec_b2by_eq s hl h8 hb, rfl, rfl, afterB2by_blen s hl,
      fun _ hk => afterB2by_byteAt_toNat s hl hb hk, fun _ hk hk8 => afterB2by_byteAt_of_ge s hl hk hk8⟩⟩⟩

/-- Settles O19: each command undoes the other because a byte and its group of lanes determine each other through EXP
and INV, which are also what the integer conversions do at 8 bits. -/
theorem byteCodecLaws : Obligations.ByteCodecLaws := by
  refine ⟨fun s h => ⟨⟨_, exec_by2b_eq s h, afterBy2b_llen s h⟩, ?_⟩, fun s hl h8 hb => ?_, compact_expand,
    fun p h8 hp => exists_compact_expand h8 hp, fun s => ?_, exec_b2i_eight⟩
  · exact ⟨_, execSeq_by2b_b2by s h, afterB2by_afterBy2b_blen s h, rfl, fun k hk => afterB2by_afterBy2b_byteAt s h hk,
      fun k hk hk8 => afterB2by_afterBy2b_byteAt_of_ge s h hk hk8⟩
  · exact ⟨_, execSeq_b2by_by2b s hl h8 hb, afterBy2b_afterB2by_llen s hl h8,
      fun i hi => afterBy2b_afterB2by_laneAt s hl h8 hb hi,
      fun i hi hi64 => afterBy2b_afterB2by_laneAt_of_ge s hl hi hi64⟩
  · exact ⟨_, exec_i2b_eq s (by omega), afterI2b_eight_sequence s⟩

end Sys2Proof.Machine
end

section
/-! PROOFS of the statements of 60_exceptions.md. Every command ends as `Ending` says, so the code a command leaves in
ERR tells its cause (`exec_cause`); and a cause that comes first in R70's order keeps the later ones from being
reported, which is what the spec lemmas of the single errors say. -/

namespace Sys2Proof.Machine

/-! ## From the code in ERR to the cause (60_exceptions.md R69) -/

theorem errorCode_injective {e e' : ErrorKind} (h : errorCode e = errorCode e') : e = e' := by
  revert h; cases e <;> cases e' <;> decide

/-- ERRIDX holds every lane index. -/
theorem raise_errIdx_toNat (s : State) (e : ErrorKind) {k : Nat} (hk : k < 64) :
    (s.raise e k).status.errIdx.toNat = k := Nat.mod_eq_of_lt (by omega)

/-- A command whose ERR is a kind's code raised that kind, for a cause of it. -/
theorem Ending.cause {i : Instr} {s t : State} {e : ErrorKind} (h : Ending i s t) (he : t.status.err = errorCode e) :
    ∃ k, t = s.raise e k ∧ Cause i s e k := by
  cases h with
  | error e' k ht hc =>
    subst ht
    cases errorCode_injective he
    exact ⟨k, rfl, hc⟩
  | success hs _ _ => exact absurd (he.symm.trans (congrArg Status.err hs)) (errorCode_ne_zero e)

/-- OperandRange is reported exactly for a count out of range (60_exceptions.md R74). -/
theorem exec_err_eq_range_iff {i : Instr} {s t : State} (ht : exec i s = .next t) :
    t.status.err = 5 ↔ OutOfRange i s := by
  constructor
  · intro h5
    obtain ⟨k, -, ⟨hr⟩⟩ := (exec_ending_of_next s i ht).cause (e := .operandRange) h5
    exact hr
  · intro hr
    rw [exec_outOfRange hr] at ht
    cases ht; rfl

/-- A command that raised another error than OperandRange has its counts in range (60_exceptions.md R70). -/
theorem exec_cause {i : Instr} {s t : State} {e : ErrorKind} (ht : exec i s = .next t)
    (he : t.status.err = errorCode e) (hne : e ≠ .operandRange) :
    ∃ k, t = s.raise e k ∧ Cause i s e k ∧ ¬ OutOfRange i s := by
  obtain ⟨k, hk, hc⟩ := (exec_ending_of_next s i ht).cause he
  refine ⟨k, hk, hc, fun hr => hne (errorCode_injective ?_)⟩
  exact he.symm.trans ((exec_err_eq_range_iff ht).mpr hr)

/-- An error leaves no partial result (60_exceptions.md R77). -/
theorem exec_onlyStatus {i : Instr} {s t : State} (ht : exec i s = .next t) (e : ErrorKind)
    (he : t.status.err = errorCode e) : OnlyStatus s t :=
  (exec_ending_of_next s i ht).frame.2 (he ▸ errorCode_ne_zero e)

/-! ## The errors a command can report (60_exceptions.md R70 to R72) -/

/-- The kinds of error a legal command can raise; `Cause.mem_errorKinds` says that no cause has another. -/
def errorKinds : Instr → List ErrorKind
  | .b2i => [.invalidBitValue, .operandRange]
  | .b2is => [.invalidBitValue, .operandRange]
  | .b2by => [.malformedLength, .invalidBitPattern, .operandRange]
  | .i2b _ => [.operandRange]
  | .swp _ => [.operandRange]
  | .by2b => [.operandRange]

theorem Cause.mem_errorKinds {i : Instr} {s : State} {e : ErrorKind} {k : Nat} (h : Cause i s e k) :
    e ∈ errorKinds i := by
  cases h with
  | range _ => cases i <;> simp [errorKinds]
  | length hi _ => subst hi; simp [errorKinds]
  | badBit _ hi _ _ => obtain rfl | rfl := hi <;> simp [errorKinds]
  | badLane _ hi _ _ => subst hi; simp [errorKinds]

/-- ERR after a legal command: success, or one of the command's kinds. -/
theorem exec_err_mem {i : Instr} {s t : State} (ht : exec i s = .next t) :
    t.status.err ∈ 0 :: (errorKinds i).map errorCode := by
  cases exec_ending_of_next s i ht with
  | error e k he hc => subst he; exact List.mem_cons_of_mem _ (List.mem_map_of_mem (f := errorCode) hc.mem_errorKinds)
  | success hs _ _ => rw [hs]; exact List.mem_cons_self

theorem exists_firstBadLane_iff {P : Byte → Prop} {s : State} :
    (∃ k, FirstBadLane P s k) ↔ ∃ j, j < s.llen.toNat ∧ ¬ P (s.laneAt j) := by
  constructor
  · rintro ⟨k, hk, hbad, -⟩
    exact ⟨k, hk, hbad⟩
  · rintro ⟨j, hj, hbad⟩
    exact (allAccepted_or_firstBad s P).resolve_left fun hall => hbad (hall j hj)

/-- A value that is a Bit is one `norm` accepts (40_int_bits.md R57). -/
theorem norm_ne_none_iff (e : Byte) : norm e ≠ none ↔ IsBit e :=
  Option.isSome_iff_ne_none.symm.trans (norm_isSome_iff e)

section
variable {i : Instr} {s t : State} (ht : exec i s = .next t)
include ht

/-- InvalidBitValue, reported by B2I and B2I.S at the first lane that is no Bit (60_exceptions.md R70). -/
theorem exec_err_eq_bitValue (hi : i = .b2i ∨ i = .b2is) (h1 : t.status.err = 1) :
    s.llen.toNat ≤ 64 ∧ FirstBadLane IsBit s t.status.errIdx.toNat := by
  obtain ⟨k, rfl, hc, hr⟩ := exec_cause (e := .invalidBitValue) ht h1 (by simp)
  have hl : s.llen.toNat ≤ 64 := by obtain rfl | rfl := hi <;> exact Nat.not_lt.mp hr
  cases hc with
  | badBit _ _ hk hfirst =>
    rw [raise_errIdx_toNat s _ hk]
    exact ⟨hl, hfirst⟩

theorem exec_err_eq_bitValue_iff (hi : i = .b2i ∨ i = .b2is) :
    t.status.err = 1 ↔ s.llen.toNat ≤ 64 ∧ ∃ j, j < s.llen.toNat ∧ norm (s.laneAt j) = none := by
  constructor
  · intro h1
    obtain ⟨hl, hk, hbad, -⟩ := exec_err_eq_bitValue ht hi h1
    exact ⟨hl, _, hk, Decidable.not_not.mp (mt (norm_ne_none_iff _).mp hbad)⟩
  · rintro ⟨hl, j, hj, hnone⟩
    obtain ⟨k, hk⟩ := exists_firstBadLane_iff.mpr ⟨j, hj, fun hb => (norm_ne_none_iff _).mpr hb hnone⟩
    rw [exec_firstBadLane hi hl hk] at ht
    cases ht; rfl

end

section
variable {s t : State} (ht : exec .b2by s = .next t)
include ht

/-- MalformedLength, reported by B2BY with index 0 (60_exceptions.md R71). -/
theorem exec_err_eq_length (h2 : t.status.err = 2) :
    s.llen.toNat ≤ 64 ∧ s.llen.toNat % 8 ≠ 0 ∧ t.status.errIdx = 0 := by
  obtain ⟨k, rfl, hc, hr⟩ := exec_cause (e := .malformedLength) ht h2 (by simp)
  cases hc with
  | length _ h8 => exact ⟨Nat.not_lt.mp hr, h8, rfl⟩

theorem exec_err_eq_length_iff : t.status.err = 2 ↔ s.llen.toNat ≤ 64 ∧ s.llen.toNat % 8 ≠ 0 := by
  constructor
  · intro h2
    obtain ⟨hl, h8, -⟩ := exec_err_eq_length ht h2
    exact ⟨hl, h8⟩
  · rintro ⟨hl, h8⟩
    rw [exec_b2by_length s hl h8] at ht
    cases ht; rfl

/-- InvalidBitPattern, reported by B2BY at the first lane that is not canonical, once the length is accepted
(60_exceptions.md R70, R72). -/
theorem exec_err_eq_bitPattern (h3 : t.status.err = 3) :
    s.llen.toNat ≤ 64 ∧ s.llen.toNat % 8 = 0 ∧ FirstBadLane IsCanonicalLane s t.status.errIdx.toNat := by
  obtain ⟨k, rfl, hc, hr⟩ := exec_cause (e := .invalidBitPattern) ht h3 (by simp)
  have hl : s.llen.toNat ≤ 64 := Nat.not_lt.mp hr
  have h8 : s.llen.toNat % 8 = 0 := by
    by_contra h8
    exact absurd (h3.symm.trans ((exec_err_eq_length_iff ht).mpr ⟨hl, h8⟩)) (by decide)
  cases hc with
  | badLane _ _ hk hfirst =>
    rw [raise_errIdx_toNat s _ hk]
    exact ⟨hl, h8, hfirst⟩

theorem exec_err_eq_bitPattern_iff : t.status.err = 3 ↔ s.llen.toNat ≤ 64 ∧ s.llen.toNat % 8 = 0
    ∧ ∃ j, j < s.llen.toNat ∧ ¬ IsCanonicalLane (s.laneAt j) := by
  constructor
  · intro h3
    obtain ⟨hl, h8, hfirst⟩ := exec_err_eq_bitPattern ht h3
    exact ⟨hl, h8, exists_firstBadLane_iff.mp ⟨_, hfirst⟩⟩
  · rintro ⟨hl, h8, hbad⟩
    obtain ⟨k, hk⟩ := exists_firstBadLane_iff.mpr hbad
    rw [exec_b2by_bad s hl h8 hk] at ht
    cases ht; rfl

end

/-! ## STATUS read back (60_exceptions.md R69, R76) -/

/-- The next read of STATUS, after a CMD write is answered, returns its fields. -/
theorem step_rd_status {t : State} (h : t.inReset = false) :
    ∃ v : Word, step (t.offer (rd 0x04)) = .next (t.respond (.read v false))
      ∧ v.extractLsb' 0 3 = t.status.err ∧ v.extractLsb' 8 7 = t.status.errIdx ∧ v.getLsbD 16 = t.status.errSeen :=
  ⟨statusWord t.status, step_rd t h (by decide), statusWord_fields t.status⟩

/-! ## What makes no error (60_exceptions.md R75) -/

/-- An empty sequence holds no bad lane and is whole groups (60_exceptions.md R75). -/
theorem exec_err_of_empty {i : Instr} {s t : State} (ht : exec i s = .next t) (hl : s.llen = 0)
    (hr : ¬ OutOfRange i s) : t.status.err = 0 := by
  have hl : s.llen.toNat = 0 := by rw [hl]; rfl
  cases exec_ending_of_next s i ht with
  | error e k _ hc =>
    cases hc with
    | range h => exact absurd h hr
    | length _ h8 => exact absurd (by rw [hl]) h8
    | badBit _ _ _ h => exact absurd h.1 (by omega)
    | badLane _ _ _ h => exact absurd h.1 (by omega)
  | success hs _ _ => rw [hs]; rfl

/-- One run that holds the whole sequence changes no lane (41_swap.md R64). -/
theorem afterSwp_lane_of_le (s : State) {g : Nat} (hg : 1 ≤ g) (hle : s.llen.toNat ≤ g) (hl : s.llen.toNat ≤ 64) :
    (afterSwp g s).lane = s.lane := by
  refine State.lane_eq_of_sequence_eq hl ⟨rfl, ?_⟩ fun i hi => afterSwp_laneAt_of_ge s hg hl hi
  rw [afterSwp_sequence s hg hl, swapRuns_of_length_le hg ((s.sequence_length hl).trans_le hle)]

/-- Lanes that agree below LLEN make the same sequence, whatever LLEN is. -/
theorem sequence_eq_of_laneAt_eq {s t : State} (hlen : s.llen = t.llen)
    (h : ∀ j, j < s.llen.toNat → t.laneAt j = s.laneAt j) : s.sequence = t.sequence := by
  apply List.ext_getElem
  · simp [State.sequence, hlen]
  · intro j hs _
    have hj : j < s.llen.toNat ∧ j < 64 := by simpa [State.sequence] using hs
    have hlane := h j hj.1
    rw [t.laneAt_eq_getElem hj.2, s.laneAt_eq_getElem hj.2] at hlane
    simp [State.sequence, hlane]

/-- The lanes of the sequence are all that a command reads of LANE (10_state.md R24). -/
theorem sameReads_of_lanes {s : State} {lanes : Vector Byte 64} (i : Instr)
    (h : ∀ j, j < s.llen.toNat → { s with lane := lanes }.laneAt j = s.laneAt j) :
    SameReads i s { s with lane := lanes } := by
  have hseq : SameSequence s { s with lane := lanes } := ⟨rfl, sequence_eq_of_laneAt_eq rfl h⟩
  cases i with
  | i2b w => rfl
  | by2b => exact ⟨rfl, rfl⟩
  | b2i => exact hseq
  | b2is => exact hseq
  | swp g => exact hseq
  | b2by => exact hseq

theorem commandWrites_keeps_status (i : Instr) (s : State) : (commandWrites i s).status = s.status := by
  cases i <;> rfl

/-- Two states that agree on what a command reads, and in STATUS, have the same STATUS after it. -/
theorem exec_status_congr {i : Instr} {s s' : State} (h : SameReads i s s') (hst : s.status = s'.status) :
    ∃ t u : State, exec i s = .next t ∧ exec i s' = .next u ∧ t.status = u.status := by
  have he := commandError_congr h
  cases hc : commandError i s with
  | some p => exact ⟨_, _, exec_of_error hc, exec_of_error (he ▸ hc), rfl⟩
  | none =>
    refine ⟨_, _, exec_of_no_error hc, exec_of_no_error (he ▸ hc), congrArg statusOk ?_⟩
    rw [commandWrites_keeps_status, commandWrites_keeps_status, hst]

/-! ## The obligations -/

/-- Settles O31: OperandRange has no other cause, and a count out of range is the first thing a command refuses. -/
theorem operandRangeExactlyOutOfRange : Obligations.OperandRangeExactlyOutOfRange := by
  intro i s
  obtain ⟨t, ht, -⟩ := exec_ending s i
  refine ⟨t, ht, exec_err_eq_range_iff ht, fun hr => ?_⟩
  rw [exec_outOfRange hr] at ht
  cases ht; rfl

/-- Settles O32: an illegal word only raises, and a command that ends in an error keeps the frame of `Ending`. -/
theorem errorsChangeOnlyStatus : Obligations.ErrorsChangeOnlyStatus := by
  intro s c h
  obtain ⟨t, ht, ⟨why, -, rfl⟩ | ⟨i, -, -, he⟩⟩ := step_cmd s c h
  · exact ⟨_, ht, fun _ => rfl⟩
  · exact ⟨t, ht, he.frame.2⟩

/-- Settles O33: the two endings of a command, each cause with its code and index, and the read of STATUS that
follows. -/
theorem everyCommandWritesStatus : Obligations.EveryCommandWritesStatus := by
  intro s c h
  obtain ⟨t, ht, ⟨why, hw, rfl⟩ | ⟨i, hd, -, he⟩⟩ := step_cmd s c h
  · exact ⟨_, ht, .inr (.inl ⟨illegalWord_iff_decode_error.mpr ⟨why, hw⟩, rfl⟩), step_rd_status h⟩
  · refine ⟨t, ht, ?_, step_rd_status (he.sameEnv.inReset.trans h)⟩
    cases he with
    | success hs _ _ => exact .inl hs
    | error e k hraise hc =>
      subst hraise
      refine .inr (.inr ⟨i, hd, ?_⟩)
      cases hc with
      | range hr => exact .inl ⟨hr, rfl⟩
      | length hi h8 => exact .inr (.inl ⟨hi, h8, rfl⟩)
      | badBit _ hi hk hfirst => exact .inr (.inr ⟨k, hk, .inl ⟨hi, hfirst, rfl⟩⟩)
      | badLane _ hi hk hfirst => exact .inr (.inr ⟨k, hk, .inr ⟨hi, hfirst, rfl⟩⟩)

/-- Settles O34: each code is reported exactly in its place of the order, and a command reports no kind but its own. -/
theorem errorPriority : Obligations.ErrorPriority := by
  refine ⟨fun s c h hI => ?_, fun s i hi => ?_, fun s => ?_, fun s i hi => ?_⟩
  · obtain ⟨why, hw⟩ := illegalWord_iff_decode_error.mp hI
    exact ⟨_, step_cmd_error s h hw, rfl, rfl⟩
  · obtain ⟨t, ht, -⟩ := exec_ending s i
    have hrange : OutOfRange i s ↔ 64 < s.llen.toNat := by obtain rfl | rfl := hi <;> rfl
    refine ⟨t, ht, (exec_err_eq_range_iff ht).trans hrange, exec_onlyStatus ht .operandRange,
      exec_err_eq_bitValue_iff ht hi, fun h1 => ⟨?_, exec_onlyStatus ht .invalidBitValue h1⟩, ?_⟩
    · obtain ⟨-, hfirst⟩ := exec_err_eq_bitValue ht hi h1
      exact (FirstBadLane.congr s norm_ne_none_iff).mpr hfirst
    · have hmem := exec_err_mem ht
      obtain rfl | rfl := hi <;> simpa [errorKinds, errorCode] using hmem
  · obtain ⟨t, ht, -⟩ := exec_ending s .b2by
    have hmem := exec_err_mem ht
    refine ⟨t, ht, exec_err_eq_range_iff ht, exec_onlyStatus ht .operandRange, exec_err_eq_length_iff ht,
      fun h2 => ⟨?_, exec_onlyStatus ht .malformedLength h2⟩, exec_err_eq_bitPattern_iff ht,
      fun h3 => ⟨?_, exec_onlyStatus ht .invalidBitPattern h3⟩, by simpa [errorKinds, errorCode] using hmem⟩
    · obtain ⟨-, -, hidx⟩ := exec_err_eq_length ht h2
      exact hidx
    · obtain ⟨-, -, hfirst⟩ := exec_err_eq_bitPattern ht h3
      exact hfirst
  · obtain ⟨t, ht, -⟩ := exec_ending s i
    have hmem := exec_err_mem ht
    refine ⟨t, ht, ?_, exec_onlyStatus ht .operandRange⟩
    obtain rfl | ⟨w, rfl⟩ | ⟨g, rfl⟩ := hi <;> simpa [errorKinds, errorCode] using hmem

/-- Settles O35: the spec lemmas of I2B, B2I.S and SWP give success, an empty sequence offers no cause of an error, and
lanes beyond LLEN are not read. -/
theorem permissiveCasesAreNoErrors : Obligations.PermissiveCasesAreNoErrors := by
  refine ⟨fun s w hw => ⟨_, exec_i2b_eq s hw, rfl⟩, fun s hl hb => ⟨_, exec_b2is_eq s hl hb, rfl⟩,
    fun s g hg hl => ⟨_, exec_swp_eq s hg hl, rfl⟩,
    fun s g hg hle hl => ⟨_, exec_swp_eq s hg hl, afterSwp_lane_of_le s hg hle hl⟩, fun s i hl hr => ?_,
    fun s lanes i h => exec_status_congr (sameReads_of_lanes i h) rfl⟩
  obtain ⟨t, ht, -⟩ := exec_ending s i
  exact ⟨t, ht, exec_err_of_empty ht hl hr⟩

end Sys2Proof.Machine
end

section
/-! PROOFS of the statements of 70_reset_and_hazards.md. What a reset event does is `State.applyReset`, so the values
R89 gives are read off `State.reset` once, and the two events only differ in the level of the reset input. -/

namespace Sys2Proof.Machine

theorem State.reset_laneAt {i : Nat} (h : i < 64) : State.reset.laneAt i = 0x00#8 := by
  rw [State.laneAt_eq_getElem _ h]
  exact Vector.getElem_replicate h

theorem State.reset_byteAt {k : Nat} (h : k < 8) : State.reset.byteAt k = 0x00#8 := by
  rw [State.byteAt_eq_getElem _ h]
  exact Vector.getElem_replicate h

/-- Reset reaches every register, at either level of the reset input (70_reset_and_hazards.md R89). -/
theorem State.applyReset_sameRegisters (s : State) (level : Bool) :
    SameRegisters { s.applyReset with inReset := level } State.reset :=
  ⟨rfl, rfl, rfl, rfl, rfl, rfl, rfl⟩

/-- Settles O37: the values of R89 as the reset state holds them, and both reset events lead to them. -/
theorem resetGivesEveryRegisterItsValue : Obligations.ResetGivesEveryRegisterItsValue := by
  refine ⟨rfl, fun i => State.reset_laneAt, rfl, fun k => State.reset_byteAt, rfl, by decide, rfl,
    fun s => ?assert, fun s h => ?release⟩
  case assert => exact ⟨_, step_assertReset s, rfl, s.applyReset_sameRegisters true⟩
  case release => exact ⟨_, step_releaseReset h, rfl, s.applyReset_sameRegisters false⟩

end Sys2Proof.Machine
end

section
/-! PROOFS of the remaining statements: the encoding's two directions, the lookup table, one step and the invariant it
keeps, host programs, the bus, and the assembler. A step is read off `step_cases` and what an access leaves off
`AfterAccess`, so the statements about every step are a few cases each; a host program of one more access is that
access followed by the rest (`runProgram_cons`). -/

namespace Sys2Proof.Machine

/-! ## Encoding (30_encoding.md R47, R49) -/

/-- A command is well formed when its count, 0 where it has none, fits N. -/
theorem wellFormed_iff_countOf_lt {i : Instr} : WellFormed i = true ↔ countOf i < 128 := by
  cases i with
  | i2b w => exact countFits_iff
  | swp g => exact countFits_iff
  | _ => simp [WellFormed, countOf]

/-- The encoder puts each field of the command in its place. -/
theorem encode_eq_formatC (i : Instr) : encode i = formatC (countOf i) (signBit i) (opNumber i) := by
  cases i <;> rfl

/-- A word with a command's fields is the command's word. -/
theorem encode_eq_of_hasFields {c : Word} {i : Instr} (h : HasFields c i) : encode i = c := by
  obtain ⟨hH, hL, hS, hO, hN⟩ := h
  have hcount : BitVec.ofNat 7 (countOf i) = nField c := by rw [← hN, BitVec.ofNat_toNat, BitVec.setWidth_eq]
  rw [encode_eq_formatC, word_ext_fields, resHField_formatC, nField_formatC, resLField_formatC, sField_formatC,
    opField_formatC]
  exact ⟨hH.symm, hcount, hL.symm, hS.symm, hO.symm⟩

/-! ## The lookup table (10_state.md R22) -/

theorem lookupTable_getElem? (v : Byte) : lookupTable[v.toNat]? = some (expand v) := by
  simp [lookupTable, v.isLt]

/-! ## What an access leaves in STATUS (10_state.md R19) -/

/-- ERR and ERRIDX change only by a CMD write. -/
theorem AfterAccess.cmdWrite_of_err_changed {s t : State} {a : Access} (h : AfterAccess s a t)
    (hne : t.status.err ≠ s.status.err ∨ t.status.errIdx ≠ s.status.errIdx) : ∃ c, a = cmdWrite c := by
  cases h with
  | unchanged => simp at hne
  | wrote v _ _ _ => simp at hne
  | illegal c ha => exact ⟨c, ha⟩
  | ran c ha _ _ _ => exact ⟨c, ha⟩

/-- A register write clears ERRSEEN only where it is a write of STATUS with bit 16 = 1. -/
theorem writeReg_clears_errSeen {s : State} {off : Offset} {v : Word} (h4 : off.toNat % 4 = 0)
    (hset : s.status.errSeen = true) (hclr : (s.writeReg (regAt off) v).status.errSeen = false) :
    off = 0x04#8 ∧ v.getLsbD 16 = true := by
  by_cases hr : regAt off = .status
  · refine ⟨(regAt_eq_status_iff h4).mp hr, ?_⟩
    rw [hr, State.writeReg, State.writeStatus_status, statusHostWrite_eq] at hclr
    simpa [hset] using hclr
  · rw [writeReg_status v hr, hset] at hclr
    cases hclr

/-- No command clears ERRSEEN (60_exceptions.md R76). -/
theorem Ending.keeps_errSeen {i : Instr} {s t : State} (h : Ending i s t) (hset : s.status.errSeen = true) :
    t.status.errSeen = true := by
  cases h with
  | error e k ht _ => rw [ht]; rfl
  | success hs _ _ => rw [hs]; exact hset

/-- ERRSEEN is cleared only by a write of STATUS with bit 16 = 1. -/
theorem AfterAccess.statusWrite_of_errSeen_cleared {s t : State} {a : Access} (h : AfterAccess s a t)
    (hset : s.status.errSeen = true) (hclr : t.status.errSeen = false) :
    ∃ v : Word, a = ⟨0x04#8, .four, .write v⟩ ∧ v.getLsbD 16 = true := by
  cases h with
  | unchanged => simp [hset] at hclr
  | wrote v ha h4 _ =>
    obtain ⟨hoff, hbit⟩ := writeReg_clears_errSeen h4 hset hclr
    exact ⟨v, hoff ▸ ha, hbit⟩
  | illegal c _ => cases hclr
  | ran c _ i _ he => simp [he.keeps_errSeen hset] at hclr

/-- A field that fits above bit k stands there as a multiple of 2^k. -/
theorem toNat_setWidth_shiftLeft {n k : Nat} (x : BitVec n) (h : n + k ≤ 32) :
    (x.setWidth 32 <<< k).toNat = x.toNat <<< k := by
  have hlt : x.toNat <<< k < 2 ^ 32 := by
    calc x.toNat <<< k = x.toNat * 2 ^ k := Nat.shiftLeft_eq _ _
      _ < 2 ^ n * 2 ^ k := Nat.mul_lt_mul_of_pos_right x.isLt (Nat.two_pow_pos k)
      _ = 2 ^ (n + k) := (pow_add 2 n k).symm
      _ ≤ 2 ^ 32 := Nat.pow_le_pow_right (by omega) h
  rw [BitVec.toNat_shiftLeft, BitVec.toNat_setWidth_of_le (by omega), Nat.mod_eq_of_lt hlt]

/-- The number a read of STATUS returns: its fields do not overlap, so joining them is adding them. -/
theorem statusWord_toNat (st : Status) :
    (statusWord st).toNat = st.err.toNat + 2 ^ 8 * st.errIdx.toNat + 2 ^ 16 * st.errSeen.toNat := by
  have herr : st.err.toNat < 2 ^ 8 := by omega
  have hidx : st.errIdx.toNat <<< 8 + st.err.toNat < 2 ^ 16 := by rw [Nat.shiftLeft_eq]; omega
  rw [statusWord, BitVec.toNat_or, BitVec.toNat_or, toNat_setWidth_shiftLeft _ (by omega),
    toNat_setWidth_shiftLeft _ (by omega), BitVec.toNat_setWidth_of_le (by omega), BitVec.toNat_ofBool, Nat.or_assoc,
    ← Nat.shiftLeft_add_eq_or_of_lt herr, ← Nat.shiftLeft_add_eq_or_of_lt hidx, Nat.shiftLeft_eq, Nat.shiftLeft_eq]
  omega

/-! ## The invariant -/

/-- The part of the invariant that speaks of STATUS (10_state.md R19, 60_exceptions.md R69). -/
structure StatusInRange (st : Status) : Prop where
  errCode : st.err.toNat ≤ 5
  errIdxRange : st.errIdx.toNat ≤ 63
  errIdxUse : st.errIdx ≠ 0 → st.err = 1 ∨ st.err = 3

theorem inv_iff {s : State} : Inv s ↔ s.idReg = 0x42430701#32 ∧ StatusInRange s.status ∧ ResetHeld s :=
  ⟨fun ⟨hid, hc, hr, hu, hh⟩ => ⟨hid, ⟨hc, hr, hu⟩, hh⟩, fun ⟨hid, ⟨hc, hr, hu⟩, hh⟩ => ⟨hid, hc, hr, hu, hh⟩⟩

theorem resetHeld_of_released {s : State} (h : s.inReset = false) : ResetHeld s := by
  intro hr
  rw [h] at hr
  cases hr

theorem statusInRange_reset : StatusInRange State.reset.status := ⟨by decide, by decide, by decide⟩

/-- Only ERR and ERRIDX are in question. -/
theorem StatusInRange.of_fields_eq {st st' : Status} (h : StatusInRange st) (he : st'.err = st.err)
    (hi : st'.errIdx = st.errIdx) : StatusInRange st' := by
  obtain ⟨hc, hr, hu⟩ := h
  exact ⟨he ▸ hc, hi ▸ hr, by rwa [he, hi]⟩

theorem statusInRange_statusOk (st : Status) : StatusInRange (statusOk st) :=
  statusInRange_reset.of_fields_eq rfl rfl

theorem errorCode_toNat_le (e : ErrorKind) : (errorCode e).toNat ≤ 5 := by cases e <;> decide

/-- A raised error is in range when its index is a lane's, and 0 but for the two lane errors. -/
theorem statusInRange_statusError {e : ErrorKind} {k : Nat} (hk : k < 64)
    (hu : k ≠ 0 → e = .invalidBitValue ∨ e = .invalidBitPattern) : StatusInRange (statusError e k) where
  errCode := errorCode_toNat_le e
  errIdxRange := by simp [statusError]; omega
  errIdxUse hne := by
    have hk0 : k ≠ 0 := fun h0 => hne (by rw [h0]; rfl)
    obtain rfl | rfl := hu hk0
    · exact .inl rfl
    · exact .inr rfl

/-- Every command ends with STATUS in range (60_exceptions.md R69, R76). -/
theorem Ending.statusInRange {i : Instr} {s t : State} (h : Ending i s t) : StatusInRange t.status := by
  cases h with
  | error e k ht hc => rw [ht]; exact statusInRange_statusError hc.lt_64 hc.kind_of_ne_zero
  | success hs _ _ => rw [hs]; exact statusInRange_statusOk _

theorem AfterAccess.statusInRange {s t : State} {a : Access} (h : AfterAccess s a t) (hs : StatusInRange s.status) :
    StatusInRange t.status := by
  cases h with
  | unchanged => exact hs
  | wrote v _ _ _ => exact hs.of_fields_eq (writeReg_err s _ v) (writeReg_errIdx s _ v)
  | illegal c _ => exact statusInRange_statusError (by omega) (fun h0 => absurd rfl h0)
  | ran c _ i _ he => exact he.statusInRange

theorem step_keeps_statusInRange {s t : State} (hs : StatusInRange s.status) (h : step s = .next t) :
    StatusInRange t.status := by
  cases step_cases h with
  | idle _ => exact hs
  | access u a v r _ ha => exact ha.statusInRange hs
  | assertReset u => exact statusInRange_reset
  | releaseReset u _ => exact statusInRange_reset
  | releaseIdle u _ => exact hs

/-- Asserting reset gives the registers their reset values, and no other step ends with reset asserted but an idle one
(70_reset_and_hazards.md R89). -/
theorem step_keeps_resetHeld {s t : State} (hs : ResetHeld s) (h : step s = .next t) : ResetHeld t := by
  cases step_cases h with
  | idle _ => exact hs
  | access u a v r hr ha => exact resetHeld_of_released (ha.sameEnv.inReset.trans hr)
  | assertReset u => exact fun _ => rfl
  | releaseReset u _ => exact resetHeld_of_released rfl
  | releaseIdle u hr => exact resetHeld_of_released hr

/-! ## Host programs (70_reset_and_hazards.md R97) -/

theorem runProgram_nil (s : State) : runProgram [] s = .next s := by
  simp [runProgram, run, State.load]

/-- A program runs its first access, is answered, and goes on with the rest from an idle port. -/
theorem runProgram_cons (a : Access) {s : State} (hr : s.inReset = false) (hp : s.port = []) :
    ∃ (t : State) (r : Response), (∀ p, runProgram (a :: p) s = runProgram p t) ∧ t.inReset = false ∧ t.port = []
      ∧ t.responses = s.responses ++ [r] ∧ (readValue r).isSome = decide (a.op = .read) := by
  obtain ⟨t, r, hstep, ha, hread⟩ := step_access s a hr
  obtain ⟨-, hport, hresp, hreset⟩ := ha.sameEnv
  refine ⟨t.respond r, r, fun p => ?_, hreset.trans hr, hport.trans hp, by simp [hresp], hread⟩
  have hload : s.load (a :: p) = (s.offer (.access a)).behind (p.map .access) := by
    simp [State.load, State.behind, State.offer, hp]
  simp only [runProgram, List.length_cons, run, hload, step_behind _ s a hr, hstep, mapNext]
  rfl

/-- Every access of a program is answered, in order. -/
theorem runProgram_answers (p : HostProgram) {s : State} (hr : s.inReset = false) (hp : s.port = []) :
    ∃ (t : State) (rs : List Response), runProgram p s = .next t ∧ t.port = [] ∧ t.inReset = false
      ∧ t.responses = s.responses ++ rs ∧ rs.length = p.length
      ∧ rs.map (fun r => (readValue r).isSome) = p.map (fun a => decide (a.op = .read)) := by
  induction p generalizing s with
  | nil => exact ⟨s, [], runProgram_nil s, hp, hr, by simp, rfl, rfl⟩
  | cons a p ih =>
    obtain ⟨u, r, hrun, hur, hup, hresp, hread⟩ := runProgram_cons a hr hp
    obtain ⟨t, rs, ht, htp, htr, htresp, hlen, hreads⟩ := ih hur hup
    refine ⟨t, r :: rs, (hrun p).trans ht, htp, htr, ?_, by simp [hlen], by simp [hread, hreads]⟩
    rw [htresp, hresp, List.append_assoc, List.singleton_append]

/-- A program in two parts runs as the first part and then the second. -/
theorem runProgram_append (p q : HostProgram) {s t : State} (hr : s.inReset = false) (hp : s.port = [])
    (h : runProgram p s = .next t) : runProgram (p ++ q) s = runProgram q t := by
  induction p generalizing s with
  | nil => rw [runProgram_nil s] at h; cases h; rfl
  | cons a p ih =>
    obtain ⟨u, r, hrun, hur, hup, -⟩ := runProgram_cons a hr hp
    rw [List.cons_append, hrun]
    exact ih hur hup ((hrun p).symm.trans h)

/-! ## Host addresses (20_memory.md R27) -/

theorem config_base_mod : Config.base % 256 = 0 := Nat.mul_mod_right 256 _

/-- An address in the window reaches the port as its offset. -/
theorem toPort_of_window (off : Offset) (size : Size) (op : AccessOp) :
    BusAccess.toPort ⟨Config.base + off.toNat, size, op⟩ = some (.access ⟨off, size, op⟩) := by
  have hlt := off.isLt
  have hoff : BitVec.ofNat 8 (Config.base + off.toNat) = off := by
    apply BitVec.eq_of_toNat_eq
    rw [BitVec.toNat_ofNat, Nat.add_mod, config_base_mod]
    omega
  rw [BusAccess.toPort, if_pos ⟨by simp, by simpa using hlt⟩, hoff]

theorem toPort_of_outside {b : BusAccess} (h : b.addr < Config.base ∨ Config.base + 256 ≤ b.addr) :
    b.toPort = none := if_neg (by simp only [Config.win]; omega)

/-! ## The assembler (30_encoding.md R54) -/

theorem assembleI2b_of_gt {w : Nat} (h : 64 < w) : Asm.assembleI2b w = none := if_neg (by omega)

theorem assembleSwp_of_range {g : Nat} (h : g = 0 ∨ 127 < g) : Asm.assembleSwp g = none := if_neg (by omega)

theorem assemble_word (c : Word) : Asm.assemble (.word c.toNat) = some [c] := by
  simp [Asm.assemble, c.isLt]

/-! ## The state withFetchWord makes (log 1) -/

theorem withFetchWord_toNat (s : State) (c : Word) :
    s.withFetchWord 32 c.toNat = ({ s with inReset := false } : State).offer (wr 0x00#8 c) := by
  simp [State.withFetchWord, State.offer, wr, cmdWrite, Nat.mod_eq_of_lt c.isLt]

/-! ## The reset state (70_reset_and_hazards.md R91) -/

theorem reset_llen_le : State.reset.llen.toNat ≤ 64 := by decide

/-- At reset the sequence is empty, so no lane of it can be refused. -/
theorem reset_sequence_accepted {P : Byte → Prop} : ∀ i, i < State.reset.llen.toNat → P (State.reset.laneAt i) :=
  fun i hi => absurd hi (Nat.not_lt_zero i)

/-! ## The obligations -/

/-- Settles O2: a well-formed command's word has the command's fields, and the decoder reads those back. -/
theorem decodeOfEncodeIsIdentity : Obligations.DecodeOfEncodeIsIdentity := fun _ h =>
  decode_eq_ok_iff_hasFields.mpr (hasFields_encode h)

/-- Settles O41: each part of the invariant is kept by every case of a step. -/
theorem stepKeepsInvariant : Obligations.StepKeepsInvariant := by
  intro s t hs h
  obtain ⟨hid, hst, hheld⟩ := inv_iff.mp hs
  exact inv_iff.mpr ⟨step_keeps_ident hid h, step_keeps_statusInRange hst h, step_keeps_resetHeld hheld h⟩

/-- Settles O3: a word that decodes has the command's fields, which are all of it; and its count fits the field N it
was read from. -/
theorem encodeOfDecodeIsIdentity : Obligations.EncodeOfDecodeIsIdentity := by
  intro c i h
  have hf := decode_eq_ok_iff_hasFields.mp h
  refine ⟨wellFormed_iff_countOf_lt.mpr ?_, encode_eq_of_hasFields hf⟩
  obtain ⟨-, -, -, -, hN⟩ := hf
  exact hN ▸ nField_toNat_lt c

/-- Settles O15: EXP and INV are inverse, and a byte is the sum of its pattern's lanes. -/
theorem lookupTableIsBijection : Obligations.LookupTableIsBijection := by
  refine ⟨by simp [lookupTable], lookupTable_getElem?, fun v => ⟨expand_length v, fun i => expand_getElem? v⟩,
    compact_eq_some_iff, fun p h8 hp => ?_⟩
  obtain ⟨v, hv, rfl⟩ := exists_compact_expand h8 hp
  exact ⟨v, hv, byte_eq_sum v⟩

/-- Settles O36: an access changes ERR and ERRIDX, or clears ERRSEEN, only as what it leaves says; the other events are
the reset events. -/
theorem statusChangesOnlyBy : Obligations.StatusChangesOnlyBy := by
  intro s t e h
  cases e with
  | assertReset => simp
  | releaseReset => simp
  | access a =>
    cases hr : s.inReset with
    | true => rw [step_access_inReset a hr] at h; cases h
    | false =>
      obtain ⟨u, r, hstep, ha, -⟩ := step_access s a hr
      rw [hstep] at h; cases h
      refine ⟨fun hne => .inl ?_, fun hset hclr => .inl ?_⟩
      · obtain ⟨c, hc⟩ := ha.cmdWrite_of_err_changed hne
        exact ⟨c, congrArg PortEvent.access hc⟩
      · obtain ⟨v, hv, hbit⟩ := ha.statusWrite_of_errSeen_cleared hset hclr
        exact ⟨v, congrArg PortEvent.access hv, hbit⟩

/-- Settles O44, by induction on the program. -/
theorem hostProgramRunsToItsEnd : Obligations.HostProgramRunsToItsEnd :=
  ⟨fun p _ hr hp => runProgram_answers p hr hp, fun p q _ _ hr hp h => runProgram_append p q hr hp h⟩

/-- Settles O45: each kind of event has a step, an access because reset is released, and what the discipline says of
the events behind it is what the level after it asks. -/
theorem disciplinedHostNeverStopsTheUnit : Obligations.DisciplinedHostNeverStopsTheUnit := by
  intro s hd
  cases hp : s.port with
  | nil => exact ⟨s, step_idle hp, hd⟩
  | cons e rest =>
    obtain ⟨u, rfl⟩ : ∃ u : State, s = u.offer e := ⟨_, offer_of_port hp⟩
    clear hp
    cases e with
    | access a =>
      obtain ⟨hr, hrest⟩ := hd
      obtain ⟨t, r, hstep, ha, -⟩ := step_access u a hr
      obtain ⟨-, hport, -, hreset⟩ := ha.sameEnv
      refine ⟨_, hstep, ?_⟩
      rwa [State.respond_inReset, State.respond_port, hreset, hport]
    | assertReset => exact ⟨_, step_assertReset u, hd⟩
    | releaseReset =>
      cases hr : u.inReset with
      | true => exact ⟨_, step_releaseReset hr, hd⟩
      | false => exact ⟨u, step_releaseReset_idle hr, hr.symm ▸ hd⟩

/-- Settles O1, each word by evaluating the decoder. -/
theorem sampleWordsDecode : Obligations.SampleWordsDecode := by
  unfold Obligations.SampleWordsDecode
  decide

/-- Settles O6: the port's rule for a CMD write, and withFetchWord puts such a write at the port. -/
theorem stepRunsDecodedCommand : Obligations.StepRunsDecodedCommand := by
  have hrun : ∀ (s t : State) (c : Word) (i : Instr), s.inReset = false → decode c = .ok i → exec i s = .next t →
      step (s.offer (wr 0x00 c)) = .next (t.respond (.write false)) := fun s t c i h hd ht =>
    (step_cmd_ok s h hd).trans (by rw [ht, completeCommand_next])
  refine ⟨hrun, fun s t c i hd ht => ?_⟩
  rw [withFetchWord_toNat]
  exact hrun _ t c i rfl hd ht

/-- Settles O7: an empty port leaves nothing to take. -/
theorem idleStepKeepsState : Obligations.IdleStepKeepsState := fun _ => step_idle

/-- Settles O14: the four encodings by evaluation, and `norm` answers none exactly where a value is no Bit. -/
theorem normAcceptsFourEncodings : Obligations.NormAcceptsFourEncodings := by
  refine ⟨rfl, rfl, rfl, rfl, fun e => ?_⟩
  rw [← not_iff_not, ← ne_eq, norm_ne_none_iff, IsBit]
  tauto

/-- Settles O26: the port's rule for a read, at STATUS and at CMD. -/
theorem statusAndCmdReadAsMapped : Obligations.StatusAndCmdReadAsMapped := fun s h =>
  ⟨⟨_, step_rd s h (by decide), statusWord_toNat s.status⟩, step_rd s h (by decide)⟩

/-- Settles O30: an address in the window is an event behind those at the port, and one outside is none. -/
theorem baseSelectsTheWindow : Obligations.BaseSelectsTheWindow := by
  refine ⟨config_base_mod, fun s off v => ⟨?_, ?_⟩, fun s b hb => ?_⟩
  · rw [State.issue, memWrite, toPort_of_window]; rfl
  · rw [State.issue, memRead, toPort_of_window]; rfl
  · rw [State.issue, toPort_of_outside hb]; simp

/-- Settles O38: the port refuses the access. -/
theorem accessDuringResetHasNoStep : Obligations.AccessDuringResetHasNoStep := fun _ => step_access_inReset

/-- Settles O39: at reset both sequences are empty, so every command in range succeeds by its spec lemma. -/
theorem commandsRunRightAfterReset : Obligations.CommandsRunRightAfterReset :=
  ⟨⟨_, exec_b2i_eq _ reset_llen_le reset_sequence_accepted, rfl, rfl⟩,
    ⟨_, exec_b2is_eq _ reset_llen_le reset_sequence_accepted, rfl, rfl⟩,
    ⟨_, exec_b2by_eq _ reset_llen_le rfl reset_sequence_accepted, rfl, rfl⟩, ⟨_, exec_by2b_eq _ (by decide), rfl, rfl⟩,
    fun _ hw => ⟨_, exec_i2b_eq _ hw, afterI2b_llen _ hw, rfl⟩,
    fun g hg => ⟨_, exec_swp_eq _ hg reset_llen_le, afterSwp_lane_of_le _ hg (Nat.zero_le g) reset_llen_le, rfl⟩⟩

/-- Settles O40: the reset values are in the invariant's ranges, and reset is released. -/
theorem invariantHoldsAtReset : Obligations.InvariantHoldsAtReset :=
  ⟨inv_iff.mpr ⟨rfl, statusInRange_reset, resetHeld_of_released rfl⟩, rfl⟩

/-- Settles O47: the assembler's own cases, a refusal for each operand outside its range. -/
theorem assemblerDefaultsAndRefusals : Obligations.AssemblerDefaultsAndRefusals := by
  refine ⟨rfl, rfl, rfl, fun w hw => assembleI2b_of_gt hw, fun g hg => assembleSwp_of_range hg, fun c => ?_,
    fun v hv => if_neg (Nat.not_lt.mpr hv), fun off v => ⟨rfl, rfl⟩⟩
  rw [Asm.stmtAccesses, assemble_word]; rfl

end Sys2Proof.Machine
end
